-- ==== Sys2Proof/Word.lean ====
section
/-! DEFINITION. The widths of hbp-1.0's words: the command word, the output byte, the code-table index and length, the code bits. -/

namespace Sys2Proof

/-- A command word, one transfer of the command port (30_encoding.md R70). -/
abbrev Word := BitVec 32

/-- The accumulator's and an output item's width (00_scope.md R8). -/
abbrev Byte := BitVec 8

/-- The 10-bit width of `T[i].len`, `LD_IDX` and `LD_CUR` (10_state.md R20). -/
abbrev Short := BitVec 10

/-- The sixteen code bits of a TBL_DATA word (30_encoding.md R73). -/
abbrev Half := BitVec 16

/-- The code bits of one table entry: `T[i].bits[j]` is bit `j` (20_memory.md R50).
1023 is the largest `L_MAX` (00_scope.md R6); log entry 6. DESIGN CHOICE, safe. -/
abbrev CodeBits := BitVec 1023

end Sys2Proof
end

