-- ==== Sys2Proof/Config.lean ====
section
/-! DEFINITION. The build-time parameters N, L_MAX and FLUSH_PARTIAL (00_scope.md R5 to R7), their legal values and this hardware's values. -/

namespace Sys2Proof

/-- The build-time parameters: constants during a run (00_scope.md R14), untouched by reset (70_reset_and_hazards.md R192).
They stand in State so that the one machine covers every setting the spec admits; log entry 1. DESIGN CHOICE, safe. -/
structure Params where
  /-- `N`, the number of code-table entries (R5). -/
  capacity : Nat
  /-- `L_MAX`, the longest code in bits (R6). -/
  maxLen : Nat
  /-- `FLUSH_PARTIAL` (R7). -/
  flushPartial : Bool
deriving DecidableEq, Repr

/-- This hardware: `N = 1024`, `L_MAX = 1023`, `FLUSH_PARTIAL = 0` (R5, R6, R7). -/
def Params.hardware : Params := { capacity := 1024, maxLen := 1023, flushPartial := false }

/-- The values the spec admits: `1 <= N <= 1024` (R5) and `1 <= L_MAX <= 1023` (R6). -/
abbrev Params.Legal (p : Params) : Prop :=
  1 ≤ p.capacity ∧ p.capacity ≤ 1024 ∧ 1 ≤ p.maxLen ∧ p.maxLen ≤ 1023

end Sys2Proof
end

