-- ==== Sys2Proof/Syntax.lean ====
section
/-! DEFINITION. The commands of hbp-1.0, one constructor per row of spec/opcode_table.json. -/

namespace Sys2Proof

/-- A command (30_encoding.md R72). Indices and lengths are unsigned numbers (R73), whose bounds WellFormed checks;
`data` is sixteen code bits. -/
inductive Instr where
  /-- `TBL_CLR`: invalidate the whole code table (40_code_table.md R101). -/
  | tblClr
  /-- `TBL_BEGIN idx, len`: start loading one entry (R105). -/
  | tblBegin (idx len : Nat)
  /-- `TBL_DATA data`: load up to sixteen code bits (R109). -/
  | tblData (data : Half)
  /-- `SYM idx`: pack one index's code (41_packing.md R133). -/
  | sym (idx : Nat)
  /-- `END`: close the stream with the control byte (R138). -/
  | endStream
deriving DecidableEq, Repr

end Sys2Proof
end

