-- ==== Sys2Proof/WellFormed.lean ====
section
/-! DEFINITION. Which commands have an encoding: every operand fits its field (30_encoding.md R73, R79). -/

namespace Sys2Proof

/-- `idx` fits the 10-bit index field of formats B and S (30_encoding.md R71, R79: "refuses ... `idx > 1023`"). -/
def indexFits (idx : Nat) : Bool := decide (idx ≤ 1023)

/-- `len` fits the 10-bit length field of format B (R71, R79: "refuses ... `len > 1023`"). -/
def lengthFits (len : Nat) : Bool := decide (len ≤ 1023)

/-- Every operand fits its field. Whether `idx < N` and `len <= L_MAX` is checked by the command's rule, not here (R73). -/
def Instr.wellFormed : Instr → Bool
  | .tblClr => true
  | .tblBegin idx len => indexFits idx && lengthFits len
  | .tblData _ => true
  | .sym idx => indexFits idx
  | .endStream => true

end Sys2Proof
end

