-- ==== Sys2Proof/Decode.lean ====
section
/-! DEFINITION. Decoding of a command word, total and rejecting by name (30_encoding.md R70 to R77), and the encoder (R79). -/

namespace Sys2Proof

/-- The five defined opcodes (30_encoding.md R72). -/
inductive Opcode where
  | tblClr | tblBegin | tblData | sym | endStream
deriving DecidableEq, Repr

/-- The opcode field `cmd[31:28]` (R70). -/
def opcodeField (w : Word) : Nat := (w.extractLsb' 28 4).toNat

/-- The index field `cmd[9:0]` of formats B and S (R71, R73). -/
def indexField (w : Word) : Nat := (w.extractLsb' 0 10).toNat

/-- The length field `cmd[25:16]` of format B (R71, R73). -/
def lengthField (w : Word) : Nat := (w.extractLsb' 16 10).toNat

/-- The data field `cmd[15:0]` of format D (R71, R73). -/
def dataField (w : Word) : Half := w.extractLsb' 0 16

/-- The opcode map (R72); the eleven other values are illegal (R75). -/
def opcodeOf : Nat → Option Opcode
  | 1 => some .tblClr
  | 2 => some .tblBegin
  | 3 => some .tblData
  | 8 => some .sym
  | 9 => some .endStream
  | _ => none

/-- The `mask` column of R72: the bits a word of this opcode must have as `Opcode.pattern` gives them. -/
def Opcode.mask : Opcode → Word
  | .tblClr => 0xFFFFFFFF#32
  | .tblBegin => 0xFC00FC00#32
  | .tblData => 0xFFFF0000#32
  | .sym => 0xFFFFFC00#32
  | .endStream => 0xFFFFFFFF#32

/-- The `match` column of R72. -/
def Opcode.pattern : Opcode → Word
  | .tblClr => 0x10000000#32
  | .tblBegin => 0x20000000#32
  | .tblData => 0x30000000#32
  | .sym => 0x80000000#32
  | .endStream => 0x90000000#32

/-- The command of a word whose opcode is known: its operands, with no sign extension, scaling or offset (R73). -/
def Opcode.withOperands : Opcode → Word → Instr
  | .tblClr, _ => .tblClr
  | .tblBegin, w => .tblBegin (indexField w) (lengthField w)
  | .tblData, w => .tblData (dataField w)
  | .sym, w => .sym (indexField w)
  | .endStream, _ => .endStream

/-- What a word decodes to: exactly one of a command, an illegal opcode, a set reserved bit (R76). -/
inductive Decoded where
  | command (i : Instr)
  /-- The opcode is not in the map (R75): the step raises cause 1. -/
  | illegalOpcode
  /-- The opcode is defined and a reserved bit is 1 (R74): the step raises cause 2. -/
  | reservedBits
deriving DecidableEq, Repr

/-- Decoding, in R77's order of checks. -/
def decode (w : Word) : Decoded :=
  match opcodeOf (opcodeField w) with
  | none => .illegalOpcode
  | some op => if w &&& op.mask = op.pattern then .command (op.withOperands w) else .reservedBits

/-- The opcode of a command (R72). -/
def Instr.opcode : Instr → Opcode
  | .tblClr => .tblClr
  | .tblBegin _ _ => .tblBegin
  | .tblData _ => .tblData
  | .sym _ => .sym
  | .endStream => .endStream

/-- The word of a command, as R79's table writes it. Meant for well-formed commands (WellFormed.lean). -/
def encode : Instr → Word
  | .tblClr => 0x10000000#32
  | .tblBegin idx len => 0x20000000#32 ||| (BitVec.ofNat 32 len <<< 16) ||| BitVec.ofNat 32 idx
  | .tblData data => 0x30000000#32 ||| data.setWidth 32
  | .sym idx => 0x80000000#32 ||| BitVec.ofNat 32 idx
  | .endStream => 0x90000000#32

/-- The command word made of the low `nbits` bits of `w`, the bits above them zero.
Command words are one 32-bit transfer with no byte order (R55, R70); log entry 15. DEDUCED, safe. -/
def tableWord (nbits w : Nat) : Word := BitVec.ofNat 32 (w % 2 ^ nbits)

/-- The command the decoder reads from an opcode-table word, none where it rejects it. -/
def decodeTableWord (nbits w : Nat) : Option Instr :=
  match decode (tableWord nbits w) with
  | .command i => some i
  | .illegalOpcode => none
  | .reservedBits => none

end Sys2Proof
end

