-- ==== Sys2Proof/Machine/State.lean ====
section
/-! DEFINITION. The state of hbp-1.0 as plain data: everything 10_state.md R20 lists, the ports' schedule and the parameters; its value after reset; the reasons a step can stop. -/

namespace Sys2Proof.Machine

/-- One code-table entry `T[i]` (20_memory.md R50). -/
structure Entry where
  /-- 1 when the entry holds a complete code and SYM may use it. -/
  valid : Bool
  /-- The code length in bits. -/
  len : Short
  /-- `bits[j]` is bit `j`; `j = 0` is the first bit of the code. Bits with `j >= len` are never read (R51). -/
  bits : CodeBits
deriving DecidableEq, Repr

/-- What an entry reads as that the list does not hold: `valid = 0` (10_state.md R20), and `len`, `bits` zero.
The spec leaves `len` and `bits` unspecified there; log entry 3. DESIGN CHOICE, unsafe. -/
def Entry.blank : Entry := { valid := false, len := 0, bits := 0 }

/-- The code table `T` (R50): the entries that differ from `Entry.blank`, by index, indices strictly rising
(`Memory.wf`). The block's only addressable store (R53); log entry 5. DESIGN CHOICE, safe. -/
abbrev CodeTable := List (Nat × Entry)

/-- One item of the output stream (20_memory.md R56). -/
structure OutItem where
  data : Byte
  /-- 1 on the control byte that ends a stream, 0 on every other byte (10_state.md R33). -/
  last : Bool
deriving DecidableEq, Repr

/-- One entry's `len` and `bits` as a reset leaves them (part of `ResetDraw`). -/
structure StaleEntry where
  index : Nat
  len : Short
  bits : CodeBits
deriving DecidableEq, Repr

/-- The values a reset leaves in the state the spec calls unspecified, "an arbitrary value (a draw)"
(10_state.md R20, 70_reset_and_hazards.md R190). Plain data, nothing constrains it: a statement about a step
holds for every draw; log entry 4. DESIGN CHOICE, safe. -/
structure ResetDraw where
  ldIdx : Short
  ldCur : Short
  /-- `T[i].len` and `T[i].bits`; an entry not listed is left as `Entry.blank`. -/
  stale : List StaleEntry
deriving DecidableEq, Repr

/-- One rising edge of `clk` as the ports see it (10_state.md R31 to R33): transfers, not signals (log entry 7), and a
reset between commands, not inside one (log entry 11). -/
structure PortEdge where
  /-- `some d`: `rst = 1` at this edge, and the unspecified state takes the values `d`. -/
  rst : Option ResetDraw
  /-- `some w`: the host offers `w` and the block takes it (`cmd_valid = cmd_ready = 1`), unless `rst = 1`,
  when `cmd_ready = 0`. -/
  cmd : Option Word
  /-- The host accepts an output item at this edge: `out_ready = 1`, and the next undelivered item, if there is one, is
  transferred. An edge at which the block does not offer it yet is listed with `false` (log entry 20). -/
  outReady : Bool
deriving DecidableEq, Repr

/-- The edge at which the host transfers the command word `w` and does nothing else. -/
def PortEdge.ofWord (w : Word) : PortEdge := { rst := none, cmd := some w, outReady := false }

/-- The edge at which the host accepts an output item and does nothing else. -/
def PortEdge.accept : PortEdge := { rst := none, cmd := none, outReady := true }

/-- The edge at which the host asserts reset and does nothing else. -/
def PortEdge.reset (d : ResetDraw) : PortEdge := { rst := some d, cmd := none, outReady := false }

/-- The machine. `acc` to `out` are the complete architectural state of 10_state.md R20;
`sent`, `current`, `port` and `params` are the model's own (log entries 9, 21, 7, 1). -/
structure State where
  /-- `ACC`, the 8-bit accumulator (R21). -/
  acc : Byte
  /-- `BITPOS`, the bit-position counter, 0 to 7 (R22). -/
  bitpos : BitVec 3
  /-- `T`, the code table (20_memory.md R50). -/
  table : CodeTable
  /-- `LD_ACTIVE`: an entry load is in progress (R25). -/
  ldActive : Bool
  /-- `LD_IDX`: the entry being loaded, meaningful only while `LD_ACTIVE = 1` (R25). -/
  ldIdx : Short
  /-- `LD_CUR`: code bits loaded so far, meaningful only while `LD_ACTIVE = 1` (R25). -/
  ldCur : Short
  /-- `ERR` (R26). -/
  err : Bool
  /-- `CAUSE` (R26; codes of 60_exceptions.md R160). -/
  cause : BitVec 3
  /-- The output stream since the last reset, in order of emission (20_memory.md R56). -/
  out : List OutItem
  /-- How many items of `out` the host has received (10_state.md R34). -/
  sent : Nat
  /-- The command word transferred most recently since the last reset, `none` before the first (R29): with it a run's
  end can be told (70_reset_and_hazards.md R201). No command reads it; log entry 21. -/
  current : Option Word
  /-- What the host does at the next edges, oldest first (00_scope.md R9). -/
  port : List PortEdge
  /-- `N`, `L_MAX`, `FLUSH_PARTIAL` (00_scope.md R14). -/
  params : Params
deriving DecidableEq, Repr

/-- The block right after reset (10_state.md R20, 70_reset_and_hazards.md R190), with this hardware's parameters.
Nothing before the first reset has a meaning (R193; log entry 13).
`ldIdx`, `ldCur` (log entry 2) and the entries' `len`, `bits` (log entry 3) are DESIGN CHOICE 0, unsafe: the spec
leaves them unspecified. The host has listed nothing. -/
def State.reset : State where
  acc := 0x00
  bitpos := 0
  table := []
  ldActive := false
  ldIdx := 0
  ldCur := 0
  err := false
  cause := 0
  out := []
  sent := 0
  current := none
  port := []
  params := Params.hardware

/-- Reasons the machine stops with a fault: none. Every error the spec describes is the error STATE of
60_exceptions.md R163 to R166, a next state of the model; log entry 16. DEDUCED, safe. -/
inductive Fault where
deriving DecidableEq, Repr

/-- Reasons the model gives a step no meaning. -/
inductive Refusal where
  /-- Raised by an arm of `exec` for a command without a meaning yet (safe: the model stops). No arm raises it. -/
  | notModelled (mnemonic : String)
deriving DecidableEq, Repr

/-- The outcome of a step of this machine. -/
abbrev Outcome := Host.Outcome State Fault Refusal

end Sys2Proof.Machine
end

