-- ==== Sys2Proof/Machine/Flags.lean ====
section
/-! DEFINITION. The error flag and cause (10_state.md R26, R28): the causes and their codes, and the STATUS word. ERR is the block's only flag. -/

namespace Sys2Proof.Machine

/-- The six error causes (60_exceptions.md R160). -/
inductive ErrorCause where
  | illegalOpcode | reservedBits | indexRange | lengthRange | noLoad | undefinedCode
deriving DecidableEq, Repr

/-- The code column of R160. 0 is NONE and 7 is reserved. -/
def ErrorCause.code : ErrorCause → BitVec 3
  | .illegalOpcode => 1
  | .reservedBits => 2
  | .indexRange => 3
  | .lengthRange => 4
  | .noLoad => 5
  | .undefinedCode => 6

/-- `STATUS = {ERR, CAUSE}`: ERR in bit 3, CAUSE in bits 2:0 (10_state.md R26). -/
def State.status (s : State) : BitVec 4 := BitVec.ofBool s.err ++ s.cause

end Sys2Proof.Machine
end

