-- ==== Sys2Proof/Machine/Ops.lean ====
section
/-! DEFINITION. The named operations over the state: code-table store, registers, output stream, the error entry (the block's one exception), reset (the only return from it), and the ports. -/

namespace Sys2Proof.Machine

/-! ### The code table (20_memory.md R50) -/

/-- Entry `i` of the table; an index not listed reads as `Entry.blank`. -/
def CodeTable.read : CodeTable → Nat → Entry
  | [], _ => Entry.blank
  | (k, e) :: t, i => if k = i then e else CodeTable.read t i

/-- The table with entry `i` equal to `e`, in canonical form: indices stay rising, a blank entry is not listed. -/
def CodeTable.write : CodeTable → Nat → Entry → CodeTable
  | [], i, e => if e = Entry.blank then [] else [(i, e)]
  | (k, x) :: t, i, e =>
    if i < k then (if e = Entry.blank then (k, x) :: t else (i, e) :: (k, x) :: t)
    else if i = k then (if e = Entry.blank then t else (i, e) :: t)
    else (k, x) :: CodeTable.write t i e

/-- The canonical form: indices strictly rising, no entry equal to what an unlisted index reads as. -/
def Memory.wf (t : CodeTable) : Bool :=
  decide (t.Pairwise (fun a b => a.1 < b.1)) && t.all (fun p => decide (p.2 ≠ Entry.blank))

/-- `for i in 0 .. N-1: T[i].valid <- 0` (40_code_table.md R101); `len` and `bits` keep what they held. -/
def CodeTable.clearValid (t : CodeTable) : CodeTable :=
  (t.map (fun p => (p.1, { p.2 with valid := false }))).filter (fun p => decide (p.2 ≠ Entry.blank))

/-- `bits` with bit `j` equal to `b`. -/
def setBit (bits : CodeBits) (j : Nat) (b : Bool) : CodeBits :=
  if b then bits ||| BitVec.twoPow 1023 j else bits &&& ~~~(BitVec.twoPow 1023 j)

/-- The code of an entry, first bit first: `bits[0] ... bits[len - 1]` (20_memory.md R52). -/
def Entry.code (e : Entry) : List Bool := (List.range e.len.toNat).map (fun j => e.bits.getLsbD j)

/-- The table a reset leaves: every `valid` is 0, `len` and `bits` are the draw's (70_reset_and_hazards.md R190).
An index `>= N` names no entry (R50). -/
def CodeTable.ofDraw (capacity : Nat) (stale : List StaleEntry) : CodeTable :=
  stale.foldl
    (fun t x => if x.index < capacity then
      CodeTable.write t x.index { valid := false, len := x.len, bits := x.bits } else t) []

/-! ### State updates -/

/-- `T[i]`. -/
def State.entry (s : State) (i : Nat) : Entry := CodeTable.read s.table i

/-- `T[i] <- e`. -/
def State.setEntry (s : State) (i : Nat) (e : Entry) : State := { s with table := CodeTable.write s.table i e }

/-- `T[i].valid <- 0` for every `i`. -/
def State.clearTable (s : State) : State := { s with table := CodeTable.clearValid s.table }

/-- `LD_ACTIVE <- 1`, `LD_IDX <- idx`, `LD_CUR <- cur`. -/
def State.setLoad (s : State) (idx cur : Short) : State := { s with ldActive := true, ldIdx := idx, ldCur := cur }

/-- `LD_ACTIVE <- 0`. -/
def State.endLoad (s : State) : State := { s with ldActive := false }

/-- `LD_CUR <- cur`. -/
def State.setCursor (s : State) (cur : Short) : State := { s with ldCur := cur }

/-- `ACC <- acc`, `BITPOS <- pos`. -/
def State.setAcc (s : State) (acc : Byte) (pos : BitVec 3) : State := { s with acc := acc, bitpos := pos }

/-- `Emit(b, last)`: append one item to the output stream (00_scope.md R13, 20_memory.md R56). -/
def State.emit (s : State) (b : Byte) (last : Bool) : State := { s with out := s.out ++ [{ data := b, last := last }] }

/-! ### Errors: the block's exception entry (60_exceptions.md R163), and the guard of every command (R165) -/

/-- `raise Error(c)`: `ERR <- 1`, `CAUSE <- c`, and nothing else. -/
def State.raise (s : State) (c : ErrorCause) : State := { s with err := true, cause := c.code }

/-- The error of a word with an illegal opcode (30_encoding.md R75). -/
def State.raiseIllegalOpcode (s : State) : State := s.raise .illegalOpcode

/-- The error of a word with a reserved bit set (30_encoding.md R74). -/
def State.raiseReservedBits (s : State) : State := s.raise .reservedBits

/-- In the error state every command word is accepted and discarded with no effect, undecoded (R165). -/
def State.discards (s : State) : Bool := s.err

/-- A command runs only when `ERR = 0` (40_code_table.md R100, 41_packing.md R130); otherwise it has no effect (R165);
log entry 12. -/
def State.unlessError (s : State) (running : Outcome) : Outcome := if s.err then .next s else running

/-! ### Reset (70_reset_and_hazards.md R190): the only way to leave the error state (60_exceptions.md R166) -/

/-- Every piece of state at its reset value, the unspecified ones at the draw's; the parameters stay (R192),
and so does what the host does next. -/
def State.applyReset (s : State) (d : ResetDraw) : State where
  acc := 0x00
  bitpos := 0
  table := CodeTable.ofDraw s.params.capacity d.stale
  ldActive := false
  ldIdx := d.ldIdx
  ldCur := d.ldCur
  err := false
  cause := 0
  out := []
  sent := 0
  current := none
  port := s.port
  params := s.params

/-! ### The ports (10_state.md R31 to R34) -/

/-- The next item to be transferred to the host: the oldest one not yet received (R34), on offer at the output port from
the edge after the one that appended it on. DESIGN CHOICE, unsafe for a claim about time: the spec leaves open when an appended item is
first offered (70_reset_and_hazards.md R199, R200); log entry 20. -/
def State.outItem (s : State) : Option OutItem := s.out[s.sent]?

/-- One output transfer, if an item is on offer; else nothing happens (R32, R34; log entry 9). -/
def State.deliver (s : State) : State := if s.sent < s.out.length then { s with sent := s.sent + 1 } else s

/-- The host transfers the word `w`: it is the current command (10_state.md R29; log entry 21). -/
def State.accept (s : State) (w : Word) : State := { s with current := some w }

/-- The items the host has received since the last reset. -/
def State.received (s : State) : List OutItem := s.out.take s.sent

/-- The observation of a run so far: the items received and `(ERR, CAUSE)` (70_reset_and_hazards.md R201). -/
def State.observation (s : State) : List OutItem × Bool × BitVec 3 := (s.received, s.err, s.cause)

/-- `rst = 1` at the coming edge (R31). -/
def State.resetAsserted (s : State) : Bool :=
  match s.port with
  | [] => false
  | e :: _ => e.rst.isSome

/-- `cmd_ready` at the coming edge: 0 while `rst = 1` (70_reset_and_hazards.md R190), 1 where a word is transferred (R32).
`none`: the spec leaves it open, at an edge without a word and with no edge listed (R195, R197, R200); log entry 7. -/
def State.cmdReady (s : State) : Option Bool :=
  match s.port with
  | [] => none
  | e :: _ => if e.rst.isSome then some false else if e.cmd.isSome then some true else none

/-- The block's output pins (R33). -/
structure Pins where
  /-- `cmd_ready`, `none` where the spec leaves its value open (log entry 7). -/
  cmdReady : Option Bool
  /-- `some x`: `out_valid = 1` and `(out_data, out_last)` is `x`. `none`: `out_valid = 0`, the data pins carry nothing. -/
  out : Option OutItem
  err : Bool
  errCause : BitVec 3
deriving DecidableEq, Repr

/-- `out_valid` (R33). -/
def Pins.outValid (p : Pins) : Bool := p.out.isSome

/-- The output pins at the coming edge. `err` and `err_cause` show `ERR` and `CAUSE` at all times (R33); `cmd_ready = 0`
and `out_valid = 0` while `rst = 1` (70_reset_and_hazards.md R190), else `out_valid = 1` whenever an item is undelivered: the model's choice
where the spec leaves the latency open (log entry 20). -/
def State.pins (s : State) : Pins :=
  { cmdReady := s.cmdReady, out := if s.resetAsserted then none else s.outItem, err := s.err, errCause := s.cause }

/-- What one edge asks of the block once reset and delivery are done. -/
inductive EdgeResult where
  /-- No command is transferred at this edge: the step ends here. -/
  | settled (s : State)
  /-- The word `w` is transferred. -/
  | command (w : Word) (s : State)

/-- The next edge of the port list. With nothing listed the block waits, all state held (60_exceptions.md R174;
log entry 19).
Reset wins over both transfers (10_state.md R32, 60_exceptions.md R168). An output transfer delivers an item appended
by an earlier command (log entry 10). -/
def State.takeEdge (s : State) : EdgeResult :=
  match s.port with
  | [] => .settled s
  | e :: rest =>
    match e.rst with
    | some d => .settled (State.applyReset { s with port := rest } d)
    | none =>
      let t := if e.outReady then State.deliver { s with port := rest } else { s with port := rest }
      match e.cmd with
      | none => .settled t
      | some w => .command w (t.accept w)

end Sys2Proof.Machine
end

