-- ==== Sys2Proof/Machine/Operands.lean ====
section
/-! DEFINITION. The operand checks and operand bits of the commands (30_encoding.md R73: range checks belong to the command's rule). -/

namespace Sys2Proof.Machine

/-- `idx < N`: the index names an entry (20_memory.md R50). -/
def State.indexInRange (s : State) (idx : Nat) : Bool := decide (idx < s.params.capacity)

/-- `len <= L_MAX` (00_scope.md R6). -/
def State.lengthInRange (s : State) (len : Nat) : Bool := decide (len ≤ s.params.maxLen)

/-- The `j`-th of the code bits a TBL_DATA word carries: `data[15 - j]` (40_code_table.md R109). -/
def dataBit (data : Half) (j : Nat) : Bool := data.getLsbD (15 - j)

/-- `k = min(16, T[i].len - LD_CUR)`: how many code bits this TBL_DATA stores (R109). -/
def loadCount (e : Entry) (cur : Short) : Nat := min 16 (e.len.toNat - cur.toNat)

/-- `for j in 0 .. k-1: bits[cur + j] <- data[15 - j]` (R109). -/
def storeBits (bits : CodeBits) (cur : Nat) (data : Half) (k : Nat) : CodeBits :=
  (List.range k).foldl (fun b j => setBit b (cur + j) (dataBit data j)) bits

end Sys2Proof.Machine
end

