-- ==== Sys2Proof/Machine/PackingCommands.lean ====
section
/-! DEFINITION. The packing commands SYM and END (41_packing.md). -/

namespace Sys2Proof.Machine

/-- `PutBit(b)`: place one code bit (41_packing.md R131). -/
def State.putBit (s : State) (b : Bool) : State :=
  let acc := if b then s.acc ||| (0x80#8 >>> s.bitpos.toNat) else s.acc
  let n := s.bitpos.toNat + 1
  if n = 8 then (s.emit acc false).setAcc 0x00 0
  else s.setAcc acc (BitVec.ofNat 3 n)

/-- The bits of a code, placed in order (R133). -/
def State.putBits (s : State) (bits : List Bool) : State := bits.foldl State.putBit s

/-- The partial byte END emits when `FLUSH_PARTIAL = 1` and `BITPOS` is not 0 (R138, R142). -/
def State.flush (s : State) : State :=
  if s.params.flushPartial = true ∧ s.bitpos ≠ 0 then s.emit s.acc false else s

/-- The control byte: the number of valid bits of the incomplete last byte, 0 to 7 (R140). -/
def State.controlByte (s : State) : Byte := s.bitpos.setWidth 8

/-- `SYM idx` (R133): both checks precede every bit (R136). -/
def execSym (idx : Nat) (s : State) : Outcome :=
  s.unlessError <|
    if s.indexInRange idx then
      if (s.entry idx).valid then .next (s.putBits (s.entry idx).code)
      else .next (s.raise .undefinedCode)
    else .next (s.raise .indexRange)

/-- `END` (R138). -/
def execEnd (s : State) : Outcome :=
  s.unlessError (.next ((s.flush.emit s.controlByte true).setAcc 0x00 0))

end Sys2Proof.Machine
end

