-- ==== Sys2Proof/Machine/TableCommands.lean ====
section
/-! DEFINITION. The code-table commands TBL_CLR, TBL_BEGIN and TBL_DATA (40_code_table.md). -/

namespace Sys2Proof.Machine

/-- The writes of a TBL_BEGIN that raises nothing (40_code_table.md R105, R106). -/
def State.beginLoad (s : State) (idx len : Nat) : State :=
  let e := s.entry idx
  if len = 0 then
    (s.setEntry idx { e with valid := true, len := 0 }).endLoad
  else
    (s.setEntry idx { e with valid := false, len := BitVec.ofNat 10 len }).setLoad (BitVec.ofNat 10 idx) 0

/-- The writes of a TBL_DATA with a load in progress (R109); log entry 17 for a cursor past the length. -/
def State.loadData (s : State) (data : Half) : State :=
  let i := s.ldIdx.toNat
  let e := s.entry i
  let k := loadCount e s.ldCur
  let bits := storeBits e.bits s.ldCur.toNat data k
  let cur := s.ldCur.toNat + k
  if cur = e.len.toNat then
    ((s.setEntry i { e with valid := true, bits := bits }).setCursor (BitVec.ofNat 10 cur)).endLoad
  else
    (s.setEntry i { e with bits := bits }).setCursor (BitVec.ofNat 10 cur)

/-- `TBL_CLR` (40_code_table.md R101). -/
def execTblClr (s : State) : Outcome := s.unlessError (.next s.clearTable.endLoad)

/-- `TBL_BEGIN idx, len` (R105): the index is checked before the length (60_exceptions.md R162). -/
def execTblBegin (idx len : Nat) (s : State) : Outcome :=
  s.unlessError <|
    if s.indexInRange idx then
      if s.lengthInRange len then .next (s.beginLoad idx len)
      else .next (s.raise .lengthRange)
    else .next (s.raise .indexRange)

/-- `TBL_DATA data` (R109, R110). -/
def execTblData (data : Half) (s : State) : Outcome :=
  s.unlessError <|
    if s.ldActive then .next (s.loadData data)
    else .next (s.raise .noLoad)

end Sys2Proof.Machine
end

