-- ==== Sys2Proof/Machine/Dispatch.lean ====
section
/-! DEFINITION. One arm per command: exec calls its meaning. -/

namespace Sys2Proof.Machine

/-- What a decoded command does (30_encoding.md R72). -/
def exec (i : Instr) (s : State) : Host.Outcome State Fault Refusal :=
  match i with
  | .tblClr => Sys2Proof.Machine.execTblClr s
  | .tblBegin idx len => Sys2Proof.Machine.execTblBegin idx len s
  | .tblData data => Sys2Proof.Machine.execTblData data s
  | .sym idx => Sys2Proof.Machine.execSym idx s
  | .endStream => Sys2Proof.Machine.execEnd s

end Sys2Proof.Machine
end

