-- ==== Sys2Proof/Machine/Step.lean ====
section
/-! DEFINITION. One step of the machine: one edge of the port list, at most one command word (00_scope.md R10). -/

namespace Sys2Proof.Machine

/-- A transferred command word: discarded undecoded in the error state (60_exceptions.md R165), else decoded
(30_encoding.md R77) and executed, or its decoding error raised. -/
def runWord (w : Word) (s : State) : Host.Outcome State Fault Refusal :=
  if s.discards then .next s
  else
    match decode w with
    | .command i => exec i s
    | .illegalOpcode => .next s.raiseIllegalOpcode
    | .reservedBits => .next s.raiseReservedBits

/-- One step: the next edge the host lists, then the command word transferred at it, if any. -/
def step (s : State) : Host.Outcome State Fault Refusal :=
  match s.takeEdge with
  | .settled t => .next t
  | .command w t => runWord w t

/-- `s` with the host transferring the opcode-table word `w` at the very next edge.
The block fetches nothing (10_state.md R29): commands are pushed to it; log entry 14. -/
def State.withFetchWord (s : State) (nbits w : Nat) : State :=
  { s with port := PortEdge.ofWord (tableWord nbits w) :: s.port }

end Sys2Proof.Machine
end

