-- ==== Sys2Proof/Machine/Assembler.lean ====
section
/-! DEFINITION. The assembler of 30_encoding.md R79 and the pseudo-instructions of R80: a line of text to command words, refusing what does not fit. -/

namespace Sys2Proof.Machine

/-- A line's statement: the five commands (R79) and the three pseudo-instructions (R80). -/
inductive AsmStatement where
  | tblClr
  | tblBegin (idx len : Nat)
  | tblData (data : Nat)
  | sym (idx : Nat)
  | endStream
  | code (idx : Nat) (c : List Bool)
  | syms (is : List Nat)
  | stream (is : List Nat)
deriving DecidableEq, Repr

/-- The `k`-th TBL_DATA word of a CODE: character `16k + j` in `data[15 - j]`, zero past the end (R80). -/
def codeData (c : List Bool) (k : Nat) : Half :=
  (List.range 16).foldl (fun d j => if c.getD (16 * k + j) false then d ||| BitVec.twoPow 16 (15 - j) else d) 0

/-- `CODE idx, "c"`: a TBL_BEGIN and `ceil(L/16)` TBL_DATA (R80). -/
def codeCommands (idx : Nat) (c : List Bool) : List Instr :=
  .tblBegin idx c.length :: (List.range ((c.length + 15) / 16)).map (fun k => .tblData (codeData c k))

/-- `SYMS i_1, ..., i_m` (R80). -/
def symsCommands (is : List Nat) : List Instr := is.map .sym

/-- `STREAM i_1, ..., i_m` (R80). -/
def streamCommands (is : List Nat) : List Instr := symsCommands is ++ [.endStream]

/-- The commands of a list of commands if each has an encoding. -/
def ifWellFormed (is : List Instr) : Option (List Instr) := if is.all Instr.wellFormed then some is else none

/-- The commands of a statement; an operand outside its field is refused, not truncated (R79). -/
def assemble : AsmStatement → Option (List Instr)
  | .tblClr => some [.tblClr]
  | .tblBegin idx len => ifWellFormed [.tblBegin idx len]
  | .tblData data => if data ≤ 0xFFFF then some [.tblData (BitVec.ofNat 16 data)] else none
  | .sym idx => ifWellFormed [.sym idx]
  | .endStream => some [.endStream]
  | .code idx c => ifWellFormed (codeCommands idx c)
  | .syms is => ifWellFormed (symsCommands is)
  | .stream is => ifWellFormed (streamCommands is)

/-- The words of a statement, in order of transfer. -/
def assembleWords (a : AsmStatement) : Option (List Word) := (assemble a).map (List.map encode)

/-! ### Text (R79): one command a line, operands decimal or `0x` hexadecimal, `;` starts a comment; log entry 18 -/

/-- A piece of a line. -/
inductive AsmToken where
  | word (cs : List Char)
  | comma
  | quoted (cs : List Char)
deriving DecidableEq, Repr

/-- Close the word read so far (its characters reversed), if any. -/
def closeWord (acc : List Char) (ts : List AsmToken) : List AsmToken :=
  if acc.isEmpty then ts else .word acc.reverse :: ts

/-- The tokens of a line: `acc` holds the open word reversed, `inQuote` says that it is a quoted string.
An unclosed quote is refused. -/
def tokens : List Char → List Char → Bool → Option (List AsmToken)
  | [], acc, false => some (closeWord acc [])
  | [], _, true => none
  | c :: cs, acc, true =>
    if c = '"' then (tokens cs [] false).map (.quoted acc.reverse :: ·) else tokens cs (c :: acc) true
  | c :: cs, acc, false =>
    if c = ';' then some (closeWord acc [])
    else if c = ',' then (tokens cs [] false).map (fun ts => closeWord acc (.comma :: ts))
    else if c = '"' then (tokens cs [] true).map (closeWord acc)
    else if c = ' ' ∨ c = '\t' then (tokens cs [] false).map (closeWord acc)
    else tokens cs (c :: acc) false

/-- The value of a digit in a base up to 16. -/
def digitValue (base : Nat) (c : Char) : Option Nat :=
  let v := if '0'.toNat ≤ c.toNat ∧ c.toNat ≤ '9'.toNat then some (c.toNat - '0'.toNat)
    else if 'a'.toNat ≤ c.toNat ∧ c.toNat ≤ 'f'.toNat then some (c.toNat - 'a'.toNat + 10)
    else if 'A'.toNat ≤ c.toNat ∧ c.toNat ≤ 'F'.toNat then some (c.toNat - 'A'.toNat + 10)
    else none
  v.bind (fun d => if d < base then some d else none)

/-- The value of a nonempty string of digits, most significant first. -/
def digits (base : Nat) : List Char → Option Nat
  | [] => none
  | c :: cs => (c :: cs).foldl (fun n d => n.bind (fun n => (digitValue base d).map (base * n + ·))) (some 0)

/-- An operand: decimal, or `0x` and hexadecimal digits (R79). -/
def operand : List Char → Option Nat
  | '0' :: 'x' :: cs => digits 16 cs
  | cs => digits 10 cs

/-- A comma-separated, nonempty list of operands. -/
def operandList : List AsmToken → Option (List Nat)
  | [.word cs] => (operand cs).map (fun n => [n])
  | .word cs :: .comma :: ts => (operand cs).bind (fun n => (operandList ts).map (n :: ·))
  | _ => none

/-- A code string of the characters '0' and '1' (00_scope.md R12). -/
def codeBits : List Char → Option (List Bool)
  | [] => some []
  | '0' :: cs => (codeBits cs).map (false :: ·)
  | '1' :: cs => (codeBits cs).map (true :: ·)
  | _ => none

/-- The statement of a line's tokens; mnemonics are upper case (R79). -/
def statement : List AsmToken → Option AsmStatement
  | [] => none
  | .word m :: ts =>
    if m = ['T', 'B', 'L', '_', 'C', 'L', 'R'] then (if ts.isEmpty then some .tblClr else none)
    else if m = ['E', 'N', 'D'] then (if ts.isEmpty then some .endStream else none)
    else if m = ['T', 'B', 'L', '_', 'B', 'E', 'G', 'I', 'N'] then
      match operandList ts with
      | some [idx, len] => some (.tblBegin idx len)
      | _ => none
    else if m = ['T', 'B', 'L', '_', 'D', 'A', 'T', 'A'] then
      match operandList ts with
      | some [data] => some (.tblData data)
      | _ => none
    else if m = ['S', 'Y', 'M'] then
      match operandList ts with
      | some [idx] => some (.sym idx)
      | _ => none
    else if m = ['C', 'O', 'D', 'E'] then
      match ts with
      | [.word cs, .comma, .quoted c] => (operand cs).bind (fun idx => (codeBits c).map (.code idx))
      | _ => none
    else if m = ['S', 'Y', 'M', 'S'] then (operandList ts).map .syms
    else if m = ['S', 'T', 'R', 'E', 'A', 'M'] then (operandList ts).map .stream
    else none
  | _ => none

/-- The words of one line: none for a blank line or a comment, refused where the line is no statement. -/
def assembleLine (line : List Char) : Option (List Word) :=
  (tokens line [] false).bind fun ts =>
    if ts.isEmpty then some [] else (statement ts).bind assembleWords

/-- The words of a program, line by line, refused as a whole where a line is. -/
def assembleProgram : List (List Char) → Option (List Word)
  | [] => some []
  | l :: ls => (assembleLine l).bind (fun ws => (assembleProgram ls).map (ws ++ ·))

end Sys2Proof.Machine
end

