-- ==== Sys2Proof/Safety.lean ====
section
/-! DEFINITION. The terms claims are made in: the machine's invariant, runs of commands, the bits of a stream and its bytes, a safe run and its end, and states that differ only in what the spec leaves unspecified. -/

namespace Sys2Proof.Machine

/-! ### The invariant -/

/-- "the accumulator positions not yet filled are zero, that is `ACC & (0xFF >> BITPOS) = 0x00`" (10_state.md R23). -/
abbrev State.AccTailZero (s : State) : Prop := s.acc &&& (0xFF#8 >>> s.bitpos.toNat) = 0x00#8

/-- `ERR = 0` implies `CAUSE = 0` (10_state.md R26); with `ERR = 1` the cause is one of the codes 1 to 6 of
60_exceptions.md R160. -/
abbrev State.StatusLegal (s : State) : Prop :=
  (s.err = false → s.cause = 0) ∧ (s.err = true → s.cause ≠ 0 ∧ s.cause ≠ 7)

/-- The table is canonical, and every entry it lists exists (20_memory.md R50). -/
abbrev State.TableLegal (s : State) : Prop :=
  Memory.wf s.table = true ∧ ∀ p ∈ s.table, p.1 < s.params.capacity

/-- A valid entry's length is at most `L_MAX` (20_memory.md R50). -/
abbrev State.CodesFit (s : State) : Prop :=
  ∀ p ∈ s.table, p.2.valid = true → p.2.len.toNat ≤ s.params.maxLen

/-- While `LD_ACTIVE = 1`: the entry being loaded exists and is not valid, its length is at most `L_MAX`, and
`0 <= LD_CUR < T[LD_IDX].len` (10_state.md R25). -/
abbrev State.LoadLegal (s : State) : Prop :=
  s.ldActive = true →
    s.ldIdx.toNat < s.params.capacity ∧ (s.entry s.ldIdx.toNat).valid = false ∧
    (s.entry s.ldIdx.toNat).len.toNat ≤ s.params.maxLen ∧ s.ldCur.toNat < (s.entry s.ldIdx.toNat).len.toNat

/-- The host has received only items that were emitted (10_state.md R34). -/
abbrev State.DeliveryLegal (s : State) : Prop := s.sent ≤ s.out.length

/-- Every control byte in the output stream is a count 0 to 7: its bits 7:3 are 0 (41_packing.md R140). -/
abbrev State.ControlBytesLegal (s : State) : Prop := ∀ x ∈ s.out, x.last = true → x.data.toNat ≤ 7

/-- The machine's invariant: what holds after reset and after every step. -/
structure State.Inv (s : State) : Prop where
  params : s.params.Legal
  accTail : s.AccTailZero
  status : s.StatusLegal
  table : s.TableLegal
  codes : s.CodesFit
  load : s.LoadLegal
  delivery : s.DeliveryLegal
  control : s.ControlBytesLegal

/-! ### Runs -/

/-- Executing commands one after another, in order (20_memory.md R58). -/
def execAll : List Instr → State → Outcome
  | [], s => .next s
  | i :: is, s =>
    match exec i s with
    | .next t => execAll is t
    | .fault r => .fault r
    | .refused r => .refused r

/-- The edges at which the host transfers these commands one after another and does nothing else. -/
def commandEdges (is : List Instr) : List PortEdge := is.map (fun i => PortEdge.ofWord (encode i))

/-- A safe run has raised no error: `ERR = 0`. -/
abbrev State.Safe (s : State) : Prop := s.err = false

/-- A command word is pending: one is listed at an edge before the next reset. A run is the commands after a reset
(70_reset_and_hazards.md R201), so a word at a reset edge or after one belongs to no or to another run. -/
def commandPending : List PortEdge → Bool
  | [] => false
  | e :: rest => !e.rst.isSome && (e.cmd.isSome || commandPending rest)

/-- A run has ended (70_reset_and_hazards.md R201): (b) `ERR = 1`; or (a) the last command transferred is END, the host
has received every item, the last being that END's item with `last = 1`, and no command is pending. That the host
intends to send no other command is read off the edges it lists (log entry 21). -/
def State.ended (s : State) : Bool :=
  s.err ||
    (decide (s.current = some (encode .endStream)) && decide (s.sent = s.out.length) &&
      (match s.out.getLast? with | some x => x.last | none => false) && !commandPending s.port)

/-! ### The bits of a stream (41_packing.md R137, R139) -/

/-- The bits held in the accumulator, first bit first: position `p` is `ACC[7-p]` (10_state.md R21), `p < BITPOS`. -/
def State.heldBits (s : State) : List Bool := (List.range s.bitpos.toNat).map (fun p => s.acc.getLsbD (7 - p))

/-- The code bits a command places: those of the entry as it stands when a SYM executes (R139). -/
def placedBits : Instr → State → List Bool
  | .sym idx, s => (s.entry idx).code
  | .tblClr, _ => []
  | .tblBegin _ _, _ => []
  | .tblData _, _ => []
  | .endStream, _ => []

/-- `S = c_1 ++ ... ++ c_m`: the code bits placed by a list of commands run from `s` (R139). -/
def streamBits : List Instr → State → List Bool
  | [], _ => []
  | i :: is, s =>
    placedBits i s ++
      match exec i s with
      | .next t => streamBits is t
      | .fault _ => []
      | .refused _ => []

/-- Byte `t` of a bit sequence, `s_(8t)` in bit 7; positions past the end are 0 (R139). -/
def byteAt (bits : List Bool) (t : Nat) : Byte :=
  BitVec.ofBool (bits.getD (8 * t) false) ++ BitVec.ofBool (bits.getD (8 * t + 1) false) ++
  BitVec.ofBool (bits.getD (8 * t + 2) false) ++ BitVec.ofBool (bits.getD (8 * t + 3) false) ++
  BitVec.ofBool (bits.getD (8 * t + 4) false) ++ BitVec.ofBool (bits.getD (8 * t + 5) false) ++
  BitVec.ofBool (bits.getD (8 * t + 6) false) ++ BitVec.ofBool (bits.getD (8 * t + 7) false)

/-- The `q = floor(L/8)` data bytes of a bit sequence, each with `last = 0` (R139 item 1). -/
def dataBytes (bits : List Bool) : List OutItem :=
  (List.range (bits.length / 8)).map (fun t => { data := byteAt bits t, last := false })

/-- The partial byte of a bit sequence, emitted only if `FLUSH_PARTIAL = 1` and `r` is not 0 (R139 item 2). -/
def partialByte (flushPartial : Bool) (bits : List Bool) : List OutItem :=
  if flushPartial = true ∧ bits.length % 8 ≠ 0 then [{ data := byteAt bits (bits.length / 8), last := false }] else []

/-- The control byte `r` of a bit sequence (R139 item 3). -/
def controlItem (bits : List Bool) : OutItem := { data := BitVec.ofNat 8 (bits.length % 8), last := true }

/-- All the items of a stream whose code bits are `bits` (R139). -/
def streamItems (flushPartial : Bool) (bits : List Bool) : List OutItem :=
  dataBytes bits ++ partialByte flushPartial bits ++ [controlItem bits]

/-- How many of some items are control bytes (R145). -/
def controlCount (items : List OutItem) : Nat := items.countP (fun x => x.last)

/-! ### States that differ only in what the spec leaves unspecified (10_state.md R25, R30, 20_memory.md R51) -/

/-- Two entries that no SYM can tell apart: both not valid, or both valid with the same code. -/
abbrev Entry.SameCode (a b : Entry) : Prop := a.valid = b.valid ∧ (a.valid = true → a.code = b.code)

/-- Two entries that a load at cursor `cur` cannot tell apart: the same length, the same bits loaded so far. -/
abbrev Entry.SameLoad (a b : Entry) (cur : Nat) : Prop :=
  a.len = b.len ∧ ∀ j, j < cur → a.bits.getLsbD j = b.bits.getLsbD j

/-- Two edges at which the host does the same: the draws of a reset, and the transfers a reset suppresses, may differ. -/
abbrev PortEdge.SameAction (a b : PortEdge) : Prop :=
  a.rst.isSome = b.rst.isSome ∧ (a.rst = none → a.cmd = b.cmd ∧ a.outReady = b.outReady)

/-- Two states that differ at most in unspecified state: stale lengths and bits of the table, the load registers
while no load is in progress, and the draws of resets to come. -/
structure State.SameMeaning (s t : State) : Prop where
  acc : s.acc = t.acc
  bitpos : s.bitpos = t.bitpos
  codes : ∀ i, i < s.params.capacity → (s.entry i).SameCode (t.entry i)
  ldActive : s.ldActive = t.ldActive
  ldIdx : s.ldActive = true → s.ldIdx = t.ldIdx
  ldCur : s.ldActive = true → s.ldCur = t.ldCur
  loading : s.ldActive = true → (s.entry s.ldIdx.toNat).SameLoad (t.entry s.ldIdx.toNat) s.ldCur.toNat
  err : s.err = t.err
  cause : s.cause = t.cause
  out : s.out = t.out
  sent : s.sent = t.sent
  current : s.current = t.current
  port : List.Forall₂ PortEdge.SameAction s.port t.port
  params : s.params = t.params

/-! ### What a command leaves unchanged -/

/-- The stream's state is unchanged: `ACC`, `BITPOS`, the output stream. -/
abbrev State.SameStream (s t : State) : Prop := t.acc = s.acc ∧ t.bitpos = s.bitpos ∧ t.out = s.out

/-- The load registers are unchanged. -/
abbrev State.SameLoadRegs (s t : State) : Prop := t.ldActive = s.ldActive ∧ t.ldIdx = s.ldIdx ∧ t.ldCur = s.ldCur

/-- `ERR` and `CAUSE` are unchanged. -/
abbrev State.SameStatus (s t : State) : Prop := t.err = s.err ∧ t.cause = s.cause

/-- What stands outside the block is unchanged: the items delivered, the word transferred last, the edges to come, the
parameters. -/
abbrev State.SameOutside (s t : State) : Prop :=
  t.sent = s.sent ∧ t.current = s.current ∧ t.port = s.port ∧ t.params = s.params

/-- Every code-table entry is unchanged. -/
abbrev State.SameTable (s t : State) : Prop := ∀ i, t.entry i = s.entry i

/-- The state once an edge `e` without reset has made its transfers, before its command has any effect, `rest` being the
edges after it: an item received if the host accepts one and one is undelivered (log entries 9, 10, 20), the word
transferred, if any, the current command (log entry 21). -/
def State.afterDelivery (s : State) (e : PortEdge) (rest : List PortEdge) : State :=
  { s with
    port := rest
    sent := if e.outReady ∧ s.sent < s.out.length then s.sent + 1 else s.sent
    current := e.cmd.or s.current }

/-! ### Encodings and error conditions, written from the spec's tables and not from the decoder -/

/-- The illegal opcode values (30_encoding.md R75). -/
def illegalOpcodes : List Nat := [0x0, 0x4, 0x5, 0x6, 0x7, 0xA, 0xB, 0xC, 0xD, 0xE, 0xF]

/-- The reserved bits of each defined opcode's format (R71): bits 27:0, 27:26 and 15:10, 27:16, 27:10, 27:0. -/
def reservedBitsOf : Nat → Word
  | 0x1 => 0x0FFFFFFF#32
  | 0x2 => 0x0C00FC00#32
  | 0x3 => 0x0FFF0000#32
  | 0x8 => 0x0FFFFC00#32
  | 0x9 => 0x0FFFFFFF#32
  | _ => 0

/-- The cause a command word reports, the first that applies in the order of 60_exceptions.md R162. -/
def errorOf (w : Word) (s : State) : Option ErrorCause :=
  let op := w.toNat / 2 ^ 28
  let idx := w.toNat % 1024
  let len := w.toNat / 65536 % 1024
  if op ∈ illegalOpcodes then some .illegalOpcode
  else if w &&& reservedBitsOf op ≠ 0 then some .reservedBits
  else if op = 0x2 then
    if s.params.capacity ≤ idx then some .indexRange
    else if s.params.maxLen < len then some .lengthRange else none
  else if op = 0x3 then (if s.ldActive then none else some .noLoad)
  else if op = 0x8 then
    if s.params.capacity ≤ idx then some .indexRange
    else if (s.entry idx).valid then none else some .undefinedCode
  else none

/-! ### Loads (40_code_table.md R112) and the document's packer (41_packing.md R146) -/

/-- The sixteen code bits a TBL_DATA word carries, `data[15]` first (R109). -/
def dataBits (data : Half) : List Bool := (List.range 16).map (fun j => data.getLsbD (15 - j))

/-- The data words of the TBL_DATA commands among some commands, in order. -/
def dataWords : List Instr → List Half
  | [] => []
  | .tblData d :: is => d :: dataWords is
  | .tblClr :: is => dataWords is
  | .tblBegin _ _ :: is => dataWords is
  | .sym _ :: is => dataWords is
  | .endStream :: is => dataWords is

/-- A command that neither begins a load nor ends one: TBL_DATA, SYM, END. -/
def keepsLoad : Instr → Bool
  | .tblClr => false
  | .tblBegin _ _ => false
  | .tblData _ => true
  | .sym _ => true
  | .endStream => true

/-- The document's BitPacker (the algorithm quoted at the head of 41_packing.md), in natural numbers: the accumulator's
value and the counter, one character at a time, most significant position first; a full byte is emitted and both are
reset to zero; at the end one control byte, the count. -/
def documentPack : Nat → Nat → List Bool → List Nat
  | _, count, [] => [count]
  | acc, count, b :: bs =>
    let acc' := if b then acc + 2 ^ (7 - count) else acc
    if count + 1 = 8 then acc' :: documentPack 0 0 bs else documentPack acc' (count + 1) bs

end Sys2Proof.Machine
end

