-- ==== Sys2Proof/Certificates/Slice0/Obligations.lean ====
section
/-! DEFINITION. The statements about hbp-1.0 for the provers. Each docstring names the rule of spec/ it formalises; where a statement says "draw" it holds for every value the spec leaves unspecified (log entry 4). -/

open Sys2Proof Sys2Proof.Machine

/-! ### Encoding (30_encoding.md) -/

/-- Decoding the word of a well-formed command gives it back, for every operand its fields admit (R72, R73, R79). -/
def Obligations.DecodeEncodeRoundTrip : Prop :=
  ∀ i : Instr, i.wellFormed = true → decode (encode i) = .command i

/-- A word that decodes to a command is that command's one encoding, and the command is well-formed: no bit of a word
is ignored (R70 to R74). -/
def Obligations.CommandWordsAreEncodings : Prop :=
  ∀ (w : Word) (i : Instr), decode w = .command i → i.wellFormed = true ∧ encode i = w

/-- R76: every word is exactly one of a command (some row's mask test passes), a defined opcode with a reserved bit
set, an illegal opcode. -/
def Obligations.EveryWordIsOneOfThreeKinds : Prop :=
  ∀ w : Word,
    ((∃ i, decode w = .command i) ↔ ∃ op : Opcode, w &&& op.mask = op.pattern) ∧
    (decode w = .reservedBits ↔
      w.toNat / 2 ^ 28 ∉ illegalOpcodes ∧ w &&& reservedBitsOf (w.toNat / 2 ^ 28) ≠ 0) ∧
    (decode w = .illegalOpcode ↔ w.toNat / 2 ^ 28 ∈ illegalOpcodes)

/-- R73: operands are the fields' unsigned values, with no sign extension, scaling or offset, and no range check. -/
def Obligations.OperandsAreUnsignedFields : Prop :=
  ∀ w : Word,
    (∀ idx len, decode w = .command (.tblBegin idx len) → idx = w.toNat % 1024 ∧ len = w.toNat / 65536 % 1024) ∧
    (∀ data, decode w = .command (.tblData data) → data.toNat = w.toNat % 65536) ∧
    (∀ idx, decode w = .command (.sym idx) → idx = w.toNat % 1024) ∧
    (∀ idx len, idx ≤ 1023 → len ≤ 1023 → w.toNat = 0x20000000 + len * 65536 + idx →
      decode w = .command (.tblBegin idx len)) ∧
    (∀ data : Half, w.toNat = 0x30000000 + data.toNat → decode w = .command (.tblData data)) ∧
    (∀ idx, idx ≤ 1023 → w.toNat = 0x80000000 + idx → decode w = .command (.sym idx))

/-- Words written out from the encodings of R71, R72 and the vectors of 95_test_vectors.md decode to their commands. -/
def Obligations.SampleWordsDecode : Prop :=
  decode 0x10000000#32 = .command .tblClr ∧
  decode 0x20020001#32 = .command (.tblBegin 1 2) ∧
  decode 0x3000CFFF#32 = .command (.tblData 0xCFFF#16) ∧
  decode 0x800003E8#32 = .command (.sym 1000) ∧
  decode 0x90000000#32 = .command .endStream ∧
  decode 0x24010000#32 = .reservedBits ∧
  decode 0x00000000#32 = .illegalOpcode

/-- R79: the assembler's words, and an operand outside its field is refused rather than truncated. -/
def Obligations.AssemblerRefusesWideOperands : Prop :=
  (∀ idx len, assembleWords (.tblBegin idx len) =
    if idx ≤ 1023 ∧ len ≤ 1023 then some [BitVec.ofNat 32 (0x20000000 + len * 65536 + idx)] else none) ∧
  (∀ data, assembleWords (.tblData data) =
    if data ≤ 0xFFFF then some [BitVec.ofNat 32 (0x30000000 + data)] else none) ∧
  (∀ idx, assembleWords (.sym idx) =
    if idx ≤ 1023 then some [BitVec.ofNat 32 (0x80000000 + idx)] else none) ∧
  assembleWords .tblClr = some [0x10000000#32] ∧
  assembleWords .endStream = some [0x90000000#32]

/-! ### Steps, errors, reset -/

/-- A step whose edge transfers a word that decodes to `i` is `exec i`, at the state whose next edge is gone and whose
transfers at that edge are made (00_scope.md R10). Which item an accepting edge delivers beside a command, and that one is
on offer then, is the model's choice (log entries 9, 10, 20), and so is the record of the word (log entry 21). -/
def Obligations.StepRunsDecodedCommand : Prop :=
  ∀ (s : State) (e : PortEdge) (rest : List PortEdge) (w : Word) (i : Instr),
    s.port = e :: rest → e.rst = none → e.cmd = some w → s.err = false → decode w = .command i →
    step s = exec i (s.afterDelivery e rest)

/-- A list of commands transferred one after another runs as the commands executed in order (20_memory.md R58). That the
block takes every word of the list although the host accepts nothing meanwhile is the model's choice (log entry 8), and
that the last of them is then the current command is its own record (log entry 21). -/
def Obligations.TransferredCommandsRunInOrder : Prop :=
  ∀ (is : List Instr) (s : State) (rest : List PortEdge), (∀ i ∈ is, i.wellFormed = true) →
    Host.Core.run Sys2Proof.core is.length { s with port := commandEdges is ++ rest } =
      execAll is { s with port := rest, current := (is.getLast?.map encode).or s.current }

/-- Every step answers a next state: no command, no word and no state stops the model. That it never stops is the model's
choice and no rule of the spec: an error is a next state (log entry 16, read from 60_exceptions.md R163, R165), and a host
that accepts no output does not stall it, though it stalls the block (70_reset_and_hazards.md R197; log entry 8). -/
def Obligations.EveryStepAnswersNext : Prop :=
  (∀ s : State, ∃ t, step s = .next t) ∧ ∀ (i : Instr) (s : State), ∃ t, exec i s = .next t

/-- R74, R75: a word with an illegal opcode raises cause 1, a defined opcode with a reserved bit set raises cause 2,
and neither has any other effect. Which item an accepting edge delivers beside the word, and that one is on offer then, is
the model's choice (log entries 9, 10, 20), and so is the record of the word (log entry 21). -/
def Obligations.UndecodableWordsRaise : Prop :=
  ∀ (s : State) (e : PortEdge) (rest : List PortEdge) (w : Word),
    s.port = e :: rest → e.rst = none → e.cmd = some w → s.err = false →
    (w.toNat / 2 ^ 28 ∈ illegalOpcodes →
      step s = .next { s.afterDelivery e rest with err := true, cause := 1 }) ∧
    (w.toNat / 2 ^ 28 ∉ illegalOpcodes → w &&& reservedBitsOf (w.toNat / 2 ^ 28) ≠ 0 →
      step s = .next { s.afterDelivery e rest with err := true, cause := 2 })

/-- R162: a transferred word reports the first cause of the order that applies, with nothing else changed but the edge
consumed and the model's record of the word (log entry 21); where none applies, no error is raised. -/
def Obligations.FirstApplicableCauseReported : Prop :=
  ∀ (s : State) (w : Word) (rest : List PortEdge), s.err = false → s.port = PortEdge.ofWord w :: rest →
    ∃ t, step s = .next t ∧
      (∀ c, errorOf w s = some c → t = { s with port := rest, current := some w, err := true, cause := c.code }) ∧
      (errorOf w s = none → t.err = false ∧ t.cause = s.cause)

/-- R163: an erroring command leaves everything but ERR and CAUSE as it was, and the host sees `err = 1` and the cause. -/
def Obligations.ErrorsArePrecise : Prop :=
  ∀ (i : Instr) (s t : State), s.err = false → exec i s = .next t → t.err = true →
    (∃ c : ErrorCause, t = { s with err := true, cause := c.code } ∧ t.pins.errCause = c.code) ∧
    t.pins.err = true ∧ t.outItem = s.outItem

/-- R160: with this hardware's `N = 1024` and `L_MAX = 1023`, causes 3 and 4 cannot occur: an error of a well-formed
command is NO_LOAD of a TBL_DATA or UNDEFINED_CODE of a SYM. -/
def Obligations.HardwareRaisesNoRangeError : Prop :=
  ∀ (i : Instr) (s t : State), s.params = Params.hardware → i.wellFormed = true → s.err = false →
    exec i s = .next t → t.err = true →
    (t.cause = 5 ∧ (∃ d, i = .tblData d) ∧ s.ldActive = false) ∨
    (t.cause = 6 ∧ ∃ idx, i = .sym idx ∧ (s.entry idx).valid = false)

/-- R165: in the error state every word is accepted and discarded, whatever it is; items appended before are still
delivered. That an accepting edge delivers one item, and which, is the model's choice (log entries 9, 10, 20), and so is
the record of the discarded word as the current command (log entry 21). -/
def Obligations.ErrorStateDiscardsWords : Prop :=
  ∀ (s : State) (e : PortEdge) (rest : List PortEdge) (w : Word),
    s.port = e :: rest → e.rst = none → e.cmd = some w → s.err = true →
    step s = .next (s.afterDelivery e rest) ∧ ∀ i : Instr, exec i s = .next s

/-- R166: the error state is left exactly at a reset edge, and the first cause is kept until then. -/
def Obligations.OnlyResetLeavesErrorState : Prop :=
  ∀ s : State, s.err = true → ∃ t, step s = .next t ∧
    (t.err = false ↔ ∃ e rest, s.port = e :: rest ∧ e.rst.isSome = true) ∧
    (t.err = true → t.cause = s.cause)

/-- ERR and CAUSE change only by the error entry, from `ERR = 0` and to a code 1 to 6, and by reset, to 0
(10_state.md R26, R28); `STATUS` has ERR in bit 3 and CAUSE in bits 2:0. -/
def Obligations.StatusWrittenOnlyByErrorOrReset : Prop :=
  ∀ s t : State, step s = .next t →
    (State.SameStatus s t ∨
      (s.err = false ∧ t.err = true ∧ ∃ c : ErrorCause, t.cause = c.code) ∨
      ((∃ e rest, s.port = e :: rest ∧ e.rst.isSome = true) ∧ t.err = false ∧ t.cause = 0)) ∧
    s.status.getLsbD 3 = s.err ∧ s.status.setWidth 3 = s.cause ∧
    (∀ c : ErrorCause, c.code ≠ 0 ∧ c.code ≠ 7)

/-- R190, R192: while `rst = 1` the block takes no word and offers nothing (`cmd_ready = out_valid = 0`), and the reset
edge, from any state, sets every piece of state to its reset value and empties the output stream; the unspecified state
takes the edge's draw (log entry 4), and the parameters stay. -/
def Obligations.ResetEdgeResetsEverything : Prop :=
  ∀ (s : State) (e : PortEdge) (rest : List PortEdge) (d : ResetDraw), s.port = e :: rest → e.rst = some d →
    s.pins.cmdReady = some false ∧ s.pins.outValid = false ∧ ∃ t, step s = .next t ∧ t.acc = 0x00 ∧ t.bitpos = 0 ∧ (∀ i, (t.entry i).valid = false) ∧ t.ldActive = false ∧
      t.err = false ∧ t.cause = 0 ∧ t.out = [] ∧ t.outItem = none ∧ t.pins.outValid = false ∧
      t.ldIdx = d.ldIdx ∧ t.ldCur = d.ldCur ∧ t.port = rest ∧ t.params = s.params

/-- R168: at a reset edge reset takes effect whatever transfers the host offers and whatever ERR is, and they make no
difference to what the step leaves; an error and an emission never coincide. -/
def Obligations.ResetWinsOverTransfers : Prop :=
  (∀ (s : State) (rest : List PortEdge) (d : ResetDraw) (cmd cmd' : Option Word) (ready ready' err' : Bool),
    ∃ t, step { s with port := { rst := some d, cmd := cmd, outReady := ready } :: rest } = .next t ∧
      step { s with port := { rst := some d, cmd := cmd', outReady := ready' } :: rest, err := err' } = .next t ∧
      t.acc = 0x00 ∧ t.bitpos = 0 ∧ (∀ i, (t.entry i).valid = false) ∧ t.ldActive = false ∧ t.err = false ∧
      t.cause = 0 ∧ t.out = [] ∧ t.received = []) ∧
  (∀ s t : State, step s = .next t → s.err = false → t.err = true → t.out = s.out)

/-- The reset values of 10_state.md section 1, and this hardware's parameters (00_scope.md section 4). The model's
choices for LD_IDX, LD_CUR and the entries' `len` and `bits` (log entries 2, 3) are not stated. -/
def Obligations.ResetStateHoldsResetValues : Prop :=
  State.reset.acc = 0x00 ∧ State.reset.bitpos = 0 ∧ (∀ i, (State.reset.entry i).valid = false) ∧
  State.reset.ldActive = false ∧ State.reset.err = false ∧ State.reset.cause = 0 ∧ State.reset.out = [] ∧
  State.reset.params.capacity = 1024 ∧ State.reset.params.maxLen = 1023 ∧ State.reset.params.flushPartial = false

/-- R174: with no edge to come the block waits, all state held. -/
def Obligations.WaitingHoldsAllState : Prop :=
  ∀ s : State, s.port = [] → step s = .next s

/-! ### Invariants -/

/-- The invariant holds at reset. -/
def Obligations.ResetMeetsInv : Prop := State.reset.Inv

/-- Every step from a state that meets the invariant gives a state that meets it, whatever the host does. -/
def Obligations.StepKeepsInv : Prop :=
  ∀ s t : State, s.Inv → step s = .next t → t.Inv

/-- R23: the accumulator positions not yet filled are zero, after reset and after every command (here after every
step, reset edges included). -/
def Obligations.AccumulatorTailStaysZero : Prop :=
  State.reset.AccTailZero ∧
  (∀ s t : State, s.AccTailZero → step s = .next t → t.AccTailZero) ∧
  (∀ s : State, s.AccTailZero → s.bitpos = 0 → s.acc = 0x00)

/-- 00_scope.md R14: the parameters are constants during a run. -/
def Obligations.ParametersNeverChange : Prop :=
  ∀ s t : State, step s = .next t → t.params = s.params

/-- ACC, BITPOS and the output stream are written only by SYM and END; the load registers and the table only by the
table commands (10_state.md R21, R22, R25; 20_memory.md R50, R56). -/
def Obligations.OnlyNamedCommandsWrite : Prop :=
  ∀ (i : Instr) (s t : State), exec i s = .next t →
    (¬ State.SameStream s t → (∃ idx, i = .sym idx) ∨ i = .endStream) ∧
    (¬ State.SameLoadRegs s t ∨ t.table ≠ s.table →
      i = .tblClr ∨ (∃ idx len, i = .tblBegin idx len) ∨ ∃ d, i = .tblData d) ∧
    State.SameOutside s t

/-! ### Code-table commands (40_code_table.md) -/

/-- R100: while ERR = 1 a table command has no effect; it neither reads nor writes ACC and BITPOS and appends nothing
to the output stream. -/
def Obligations.TableCommandsLeaveStream : Prop :=
  ∀ i : Instr, (i = .tblClr ∨ (∃ idx len, i = .tblBegin idx len) ∨ ∃ d, i = .tblData d) →
    ∀ s : State, (s.err = true → exec i s = .next s) ∧
      ∃ t, exec i s = .next t ∧ State.SameStream s t ∧
        ∀ acc bitpos, exec i { s with acc := acc, bitpos := bitpos } =
          .next { t with acc := acc, bitpos := bitpos }

/-- R101: TBL_CLR makes every entry invalid, keeps every `len` and `bits`, ends the load in progress, raises nothing,
and leaves the rest; a SYM of any entry after it raises UNDEFINED_CODE; its one word is `0x10000000`. -/
def Obligations.TblClrInvalidatesEveryEntry : Prop :=
  (∀ s : State, s.Inv → s.err = false →
    ∃ t, exec .tblClr s = .next t ∧ (∀ i, t.entry i = { s.entry i with valid := false }) ∧ t.ldActive = false ∧
      t.ldIdx = s.ldIdx ∧ t.ldCur = s.ldCur ∧ State.SameStream s t ∧ State.SameStatus s t ∧ State.SameOutside s t ∧
      ∀ idx, idx < s.params.capacity → exec (.sym idx) t = .next { t with err := true, cause := 6 }) ∧
  (∀ w : Word, w.toNat / 2 ^ 28 = 0x1 →
    (decode w = .command .tblClr ↔ w = 0x10000000#32) ∧ (decode w = .reservedBits ↔ w ≠ 0x10000000#32))

/-- R105: TBL_BEGIN checks the index, then the length, writing nothing on an error; else it makes the entry invalid
with the new length, keeping its bits, and starts the load at cursor 0, or for length 0 makes it valid and ends any
load. Nothing else changes. -/
def Obligations.TblBeginStartsLoad : Prop :=
  ∀ (s : State) (idx len : Nat), s.Inv → s.err = false →
    (s.params.capacity ≤ idx → exec (.tblBegin idx len) s = .next { s with err := true, cause := 3 }) ∧
    (idx < s.params.capacity → s.params.maxLen < len →
      exec (.tblBegin idx len) s = .next { s with err := true, cause := 4 }) ∧
    (idx < s.params.capacity → len ≤ s.params.maxLen →
      ∃ t, exec (.tblBegin idx len) s = .next t ∧
        (t.entry idx).len.toNat = len ∧ (t.entry idx).bits = (s.entry idx).bits ∧
        (len = 0 → (t.entry idx).valid = true ∧ t.ldActive = false ∧ t.ldIdx = s.ldIdx ∧ t.ldCur = s.ldCur) ∧
        (1 ≤ len → (t.entry idx).valid = false ∧ t.ldActive = true ∧ t.ldIdx.toNat = idx ∧ t.ldCur = 0) ∧
        (∀ j, j ≠ idx → t.entry j = s.entry j) ∧
        State.SameStream s t ∧ State.SameStatus s t ∧ State.SameOutside s t) ∧
    (idx ≤ 1023 → len ≤ 1023 →
      decode (0x20000000#32 ||| (BitVec.ofNat 32 len <<< 16) ||| BitVec.ofNat 32 idx) = .command (.tblBegin idx len))

/-- R106: `TBL_BEGIN idx, 0` defines the empty code at once, with no error; a SYM of it then packs no bits and changes
nothing, and a TBL_DATA then finds no load. -/
def Obligations.EmptyCodeIsDefinedAtOnce : Prop :=
  ∀ (s : State) (idx : Nat), s.Inv → s.err = false → idx < s.params.capacity →
    ∃ t, exec (.tblBegin idx 0) s = .next t ∧ (t.entry idx).valid = true ∧ (t.entry idx).len = 0 ∧
      t.err = false ∧ exec (.sym idx) t = .next t ∧
      ∀ d, exec (.tblData d) t = .next { t with err := true, cause := 5 }

/-- R107: a TBL_BEGIN abandons the load in progress: the entry that was being loaded stays invalid through any later
commands until a TBL_BEGIN of that entry; a TBL_BEGIN of the entry itself restarts its load from the first bit. -/
def Obligations.AbandonedLoadStaysInvalid : Prop :=
  ∀ (s : State) (idx len : Nat), s.Inv → s.err = false → s.ldActive = true →
    idx < s.params.capacity → len ≤ s.params.maxLen →
    ∃ t, exec (.tblBegin idx len) s = .next t ∧ t.err = false ∧
      (idx ≠ s.ldIdx.toNat →
        (t.entry s.ldIdx.toNat).valid = false ∧
        ∀ (is : List Instr) (u : State), (∀ len', Instr.tblBegin s.ldIdx.toNat len' ∉ is) →
          execAll is t = .next u → (u.entry s.ldIdx.toNat).valid = false) ∧
      (idx = s.ldIdx.toNat → 1 ≤ len →
        (t.entry idx).valid = false ∧ (t.entry idx).len.toNat = len ∧ t.ldActive = true ∧ t.ldIdx = s.ldIdx ∧ t.ldCur = 0)

/-- R108: a TBL_BEGIN of nonzero length makes a valid entry invalid, and while an entry's load is in progress a SYM of
it raises UNDEFINED_CODE; a command that finds an entry valid and leaves it valid leaves it as it was, unless it is a
TBL_BEGIN of that entry with length 0: no part of a valid entry changes in place. -/
def Obligations.ValidEntriesAreNeverPatched : Prop :=
  (∀ (s : State) (idx len : Nat), s.Inv → s.err = false → idx < s.params.capacity → 1 ≤ len →
    len ≤ s.params.maxLen →
    ∃ t, exec (.tblBegin idx len) s = .next t ∧ exec (.sym idx) t = .next { t with err := true, cause := 6 }) ∧
  (∀ s : State, s.Inv → s.err = false → s.ldActive = true →
    exec (.sym s.ldIdx.toNat) s = .next { s with err := true, cause := 6 }) ∧
  (∀ (s t : State) (i : Instr) (j : Nat), s.Inv → exec i s = .next t → (s.entry j).valid = true →
    (t.entry j).valid = true → t.entry j = s.entry j ∨ i = .tblBegin j 0)

/-- R110: a TBL_DATA with no load in progress raises NO_LOAD and writes nothing; there is none after reset, after
TBL_CLR, after a TBL_BEGIN with length 0, or after the TBL_DATA that completed the previous load. -/
def Obligations.TblDataWithoutLoadRaises : Prop :=
  (∀ (s : State) (data : Half), s.err = false → s.ldActive = false →
    exec (.tblData data) s = .next { s with err := true, cause := 5 }) ∧
  State.reset.ldActive = false ∧
  (∀ s t : State, s.err = false → exec .tblClr s = .next t → t.ldActive = false) ∧
  (∀ (s t : State) (idx : Nat), s.err = false → idx < s.params.capacity → exec (.tblBegin idx 0) s = .next t →
    t.ldActive = false) ∧
  (∀ (s t : State) (data : Half), s.err = false → s.ldActive = true →
    (s.entry s.ldIdx.toNat).len.toNat = s.ldCur.toNat + min 16 ((s.entry s.ldIdx.toNat).len.toNat - s.ldCur.toNat) →
    exec (.tblData data) s = .next t → t.ldActive = false)

/-- R109: TBL_DATA stores `k = min(16, len - LD_CUR)` code bits from the cursor on, `data[15]` first, advances the
cursor by `k`, and with the last bit makes the entry valid and ends the load. Nothing else changes. -/
def Obligations.TblDataStoresCodeBits : Prop :=
  (∀ (s : State) (data : Half), s.err = false → s.ldActive = false →
    exec (.tblData data) s = .next { s with err := true, cause := 5 }) ∧
  (∀ (s : State) (data : Half) (e : Entry) (cur k : Nat), s.Inv → s.err = false → s.ldActive = true →
    e = s.entry s.ldIdx.toNat → cur = s.ldCur.toNat → k = min 16 (e.len.toNat - cur) →
    1 ≤ k ∧ k ≤ 16 ∧
    ∃ t, exec (.tblData data) s = .next t ∧
      (∀ j, j < k → (t.entry s.ldIdx.toNat).bits.getLsbD (cur + j) = data.getLsbD (15 - j)) ∧
      (∀ j, j < cur ∨ cur + k ≤ j → (t.entry s.ldIdx.toNat).bits.getLsbD j = e.bits.getLsbD j) ∧
      (t.entry s.ldIdx.toNat).len = e.len ∧ t.ldCur.toNat = cur + k ∧ t.ldIdx = s.ldIdx ∧
      ((t.entry s.ldIdx.toNat).valid = true ↔ cur + k = e.len.toNat) ∧
      (t.ldActive = false ↔ cur + k = e.len.toNat) ∧
      (∀ j, j ≠ s.ldIdx.toNat → t.entry j = s.entry j) ∧
      State.SameStream s t ∧ State.SameStatus s t ∧ State.SameOutside s t) ∧
  (∀ data : Half, decode (0x30000000#32 ||| data.setWidth 32) = .command (.tblData data))

/-- R111: the data bits below the last one used are ignored: two words that agree on the first `k` bits have the same
effect, and neither raises an error. -/
def Obligations.UnusedDataBitsAreIgnored : Prop :=
  ∀ (s : State) (a b : Half), s.Inv → s.err = false → s.ldActive = true →
    (∀ j, j < min 16 ((s.entry s.ldIdx.toNat).len.toNat - s.ldCur.toNat) → a.getLsbD (15 - j) = b.getLsbD (15 - j)) →
    exec (.tblData a) s = exec (.tblData b) s ∧ ∃ t, exec (.tblData a) s = .next t ∧ t.err = false

/-- R112: a load of length `L >= 1` takes exactly `ceil(L/16)` TBL_DATA commands: with fewer the entry is still
invalid, and after the last of them it holds the first `L` bits the data words carry, whatever SYM and END commands
stand between, provided no error is raised. -/
def Obligations.LoadTakesExactlyItsDataWords : Prop :=
  ∀ (s t : State) (idx len : Nat) (is : List Instr), s.Inv → s.err = false → idx < s.params.capacity →
    1 ≤ len → len ≤ s.params.maxLen → (∀ i ∈ is, keepsLoad i = true) →
    execAll (.tblBegin idx len :: is) s = .next t → t.err = false →
    (dataWords is).length ≤ (len + 15) / 16 ∧
    ((dataWords is).length < (len + 15) / 16 → (t.entry idx).valid = false ∧ t.ldActive = true) ∧
    ((dataWords is).length = (len + 15) / 16 →
      (t.entry idx).valid = true ∧ (t.entry idx).len.toNat = len ∧ t.ldActive = false ∧
      (t.entry idx).code = ((dataWords is).flatMap dataBits).take len)

/-- The CODE pseudo-instruction of 30_encoding.md R80 loads its code, for every length 0 to L_MAX, and touches nothing
but that entry and the load registers. -/
def Obligations.CodeLineLoadsItsCode : Prop :=
  ∀ (s : State) (idx : Nat) (c : List Bool), s.Inv → s.err = false → idx < s.params.capacity →
    c.length ≤ s.params.maxLen →
    ∃ t, execAll (codeCommands idx c) s = .next t ∧ (t.entry idx).valid = true ∧ (t.entry idx).code = c ∧
      t.ldActive = false ∧ (∀ j, j ≠ idx → t.entry j = s.entry j) ∧
      State.SameStream s t ∧ State.SameStatus s t ∧ State.SameOutside s t

/-- 20_memory.md R59: a SYM right after the TBL_DATA that completes an entry packs the bits loaded before followed by
the new ones. -/
def Obligations.CompletedLoadIsSeenAtOnce : Prop :=
  ∀ (s : State) (data : Half) (e : Entry), s.Inv → s.err = false → s.ldActive = true →
    e = s.entry s.ldIdx.toNat → e.len.toNat ≤ s.ldCur.toNat + 16 →
    ∃ t u, exec (.tblData data) s = .next t ∧ exec (.sym s.ldIdx.toNat) t = .next u ∧
      u.out = s.out ++ dataBytes
        (s.heldBits ++ e.code.take s.ldCur.toNat ++ (dataBits data).take (e.len.toNat - s.ldCur.toNat)) ∧
      u.bitpos.toNat = (s.bitpos.toNat + e.len.toNat) % 8 ∧ u.err = false

/-! ### Packing commands (41_packing.md) -/

/-- R130: while ERR = 1 a packing command has no effect; neither reads nor writes the load registers; SYM leaves the
table, and END neither reads nor writes it. -/
def Obligations.PackingCommandsLeaveLoadAndTable : Prop :=
  ∀ i : Instr, ((∃ idx, i = .sym idx) ∨ i = .endStream) →
    ∀ s : State, (s.err = true → exec i s = .next s) ∧
      ∃ t, exec i s = .next t ∧ State.SameLoadRegs s t ∧ t.table = s.table ∧
        (∀ a idx cur, exec i { s with ldActive := a, ldIdx := idx, ldCur := cur } =
          .next { t with ldActive := a, ldIdx := idx, ldCur := cur }) ∧
        (i = .endStream → ∀ tab, exec i { s with table := tab } = .next { t with table := tab })

/-- R131: PutBit writes the bit at position BITPOS counted from the most significant bit, leaves the other positions,
and advances BITPOS; the eighth bit emits the byte at once and clears both registers. -/
def Obligations.PutBitPlacesOneBit : Prop :=
  ∀ (s : State) (b : Bool), s.AccTailZero →
    (s.bitpos.toNat < 7 →
      (∀ j, j < 8 → (s.putBit b).acc.getLsbD (7 - j) =
        if j = s.bitpos.toNat then b else s.acc.getLsbD (7 - j)) ∧
      (s.putBit b).bitpos.toNat = s.bitpos.toNat + 1 ∧ (s.putBit b).out = s.out) ∧
    (s.bitpos.toNat = 7 →
      (s.putBit b).acc = 0x00 ∧ (s.putBit b).bitpos = 0 ∧
      ∃ byte : Byte, (s.putBit b).out = s.out ++ [{ data := byte, last := false }] ∧
        ∀ j, j < 8 → byte.getLsbD (7 - j) = if j = 7 then b else s.acc.getLsbD (7 - j))

/-- R133, R134: a SYM of a valid entry of length `L` from `BITPOS = p` places the code's bits in order: it emits the
`floor((p + L)/8)` whole bytes of the bits held followed by the code, each with `last = 0`, and holds the rest; it
changes nothing else. An index `>= N` raises cause 3 and an entry that is not valid cause 6, before any bit is placed. -/
def Obligations.SymPacksItsCode : Prop :=
  ∀ (s : State) (idx : Nat), s.Inv → s.err = false →
    (s.params.capacity ≤ idx → exec (.sym idx) s = .next { s with err := true, cause := 3 }) ∧
    (idx < s.params.capacity → (s.entry idx).valid = false →
      exec (.sym idx) s = .next { s with err := true, cause := 6 }) ∧
    (idx < s.params.capacity → (s.entry idx).valid = true →
      ∃ t, exec (.sym idx) s = .next t ∧
        t.out = s.out ++ dataBytes (s.heldBits ++ (s.entry idx).code) ∧
        (dataBytes (s.heldBits ++ (s.entry idx).code)).length = (s.bitpos.toNat + (s.entry idx).len.toNat) / 8 ∧
        (s.bitpos.toNat + (s.entry idx).len.toNat) / 8 ≤ (7 + s.params.maxLen) / 8 ∧
        t.bitpos.toNat = (s.bitpos.toNat + (s.entry idx).len.toNat) % 8 ∧
        t.heldBits = (s.heldBits ++ (s.entry idx).code).drop
          (8 * ((s.bitpos.toNat + (s.entry idx).len.toNat) / 8)) ∧
        t.AccTailZero ∧ t.table = s.table ∧
        State.SameLoadRegs s t ∧ State.SameStatus s t ∧ State.SameOutside s t) ∧
    (idx ≤ 1023 → decode (0x80000000#32 ||| BitVec.ofNat 32 idx) = .command (.sym idx))

/-- R135: a SYM of the empty code succeeds and changes nothing. -/
def Obligations.SymOfEmptyCodeChangesNothing : Prop :=
  ∀ (s : State) (idx : Nat), s.err = false → idx < s.params.capacity → (s.entry idx).valid = true →
    (s.entry idx).len = 0 → exec (.sym idx) s = .next s

/-- R136: a SYM that raises an error only enters the error state, with cause 3 or 6. -/
def Obligations.FailingSymHasNoOtherEffect : Prop :=
  ∀ (s t : State) (idx : Nat), s.err = false → exec (.sym idx) s = .next t → t.err = true →
    State.SameStream s t ∧ t.table = s.table ∧ State.SameLoadRegs s t ∧ State.SameOutside s t ∧
    (t.cause = 3 ∨ t.cause = 6)

/-- R138: END emits, under FLUSH_PARTIAL = 1 with bits held, the accumulator, then the control byte whose value is
BITPOS, and clears ACC and BITPOS; it raises nothing and changes nothing else. Its one word is `0x90000000`. -/
def Obligations.EndClosesStream : Prop :=
  (∀ s : State, s.err = false →
    ∃ t, exec .endStream s = .next t ∧
      t.out = s.out ++
        (if s.params.flushPartial = true ∧ s.bitpos ≠ 0 then [{ data := s.acc, last := false }] else []) ++
        [{ data := BitVec.ofNat 8 s.bitpos.toNat, last := true }] ∧
      t.acc = 0x00 ∧ t.bitpos = 0 ∧ t.table = s.table ∧
      State.SameLoadRegs s t ∧ State.SameStatus s t ∧ State.SameOutside s t) ∧
  (∀ w : Word, w.toNat / 2 ^ 28 = 0x9 →
    (decode w = .command .endStream ↔ w = 0x90000000#32) ∧ (decode w = .reservedBits ↔ w ≠ 0x90000000#32))

/-- The partial byte END emits under FLUSH_PARTIAL = 1 with `BITPOS = r`, not 0, holds the `r` bits held from bit
7 down, and zeros below; with `BITPOS = 0` no partial byte is emitted under either setting
(41_packing.md R142; that the bits held are the stream's last code bits is StreamLaw's to say). -/
def Obligations.PartialByteIsZeroPadded : Prop :=
  ∀ (s t : State), s.AccTailZero → s.err = false → exec .endStream s = .next t →
    (s.params.flushPartial = true → s.bitpos ≠ 0 →
      ∃ (byte control : Byte), t.out = s.out ++ [{ data := byte, last := false }, { data := control, last := true }] ∧
        control.toNat = s.bitpos.toNat ∧
        (∀ j, j < 8 → byte.getLsbD (7 - j) = s.heldBits.getD j false) ∧
        (∀ j, s.bitpos.toNat ≤ j → j < 8 → byte.getLsbD (7 - j) = false)) ∧
    (s.bitpos = 0 → t.out = s.out ++ [{ data := 0x00, last := true }])

/-- R139, the stream law: from the start of a stream, any commands without END (table commands between the SYMs
included) followed by END emit exactly the items of the bits they place, if no error is raised, under either setting
of FLUSH_PARTIAL; the next stream then starts with both registers clear. -/
def Obligations.StreamLaw : Prop :=
  ∀ (s : State) (is : List Instr), s.Inv → s.err = false → s.bitpos = 0 → (∀ i ∈ is, i ≠ .endStream) →
    ∃ t, execAll (is ++ [.endStream]) s = .next t ∧
      (t.err = false →
        t.out = s.out ++ streamItems s.params.flushPartial (streamBits is s) ∧ t.acc = 0x00 ∧ t.bitpos = 0)

/-- R143, R145: an END with nothing held emits `(0x00, last = 1)` alone, and so does an END after it, under either
setting; every END without error adds exactly one control byte and every other command none, so that the control bytes
count the streams. -/
def Obligations.ControlBytesCountStreams : Prop :=
  (∀ s : State, s.err = false → s.bitpos = 0 →
    ∃ t u, exec .endStream s = .next t ∧ t.out = s.out ++ [{ data := 0x00, last := true }] ∧
      exec .endStream t = .next u ∧ u.out = t.out ++ [{ data := 0x00, last := true }]) ∧
  (∀ (s t : State) (i : Instr), s.AccTailZero → s.err = false → exec i s = .next t →
    controlCount t.out = controlCount s.out + if i = .endStream then 1 else 0)

/-- R146: on a block with FLUSH_PARTIAL = 0 that starts a stream and whose table defines every index, the SYMs of an
IndexSequence and END emit exactly the bytes of the document's BitPacker, tagged `last = 0` but for the final one. -/
def Obligations.StreamMatchesDocumentPacker : Prop :=
  ∀ (s : State) (is : List Nat), s.Inv → s.err = false → s.bitpos = 0 → s.params.flushPartial = false →
    (∀ i ∈ is, i < s.params.capacity ∧ (s.entry i).valid = true) →
    ∃ t items control, execAll (streamCommands is) s = .next t ∧ t.err = false ∧
      t.out = s.out ++ items ++ [control] ∧
      (items ++ [control]).map (fun x => x.data.toNat) = documentPack 0 0 (is.flatMap (fun i => (s.entry i).code)) ∧
      (∀ x ∈ items, x.last = false) ∧ control.last = true

/-! ### The output stream and its delivery (10_state.md R34, 20_memory.md R56, 70_reset_and_hazards.md) -/

/-- R34: while no reset intervenes the output stream only grows at its end, the host has received a prefix of it, and
an edge at which the host accepts delivers exactly the next item if there is one, any other edge none. That an item is on
offer at every edge after the one that appended it, and not at that one, is the model's choice (log entries 9, 10, 20). -/
def Obligations.DeliveryIsInOrder : Prop :=
  ∀ (s t : State) (e : PortEdge) (rest : List PortEdge), s.DeliveryLegal → s.port = e :: rest → e.rst = none →
    step s = .next t →
    (∃ new, t.out = s.out ++ new) ∧ t.port = rest ∧
    t.received = s.received ++ (if e.outReady then s.outItem.toList else []) ∧
    ∃ later, t.out = t.received ++ later

/-- Progress (R199): a host that keeps accepting receives every item of the output stream. One item at every accepting edge
is the model's choice (log entries 9, 20): the spec gives no such bound (R199, R200). -/
def Obligations.AcceptingHostReceivesEverything : Prop :=
  ∀ s : State, s.DeliveryLegal → s.port = List.replicate (s.out.length - s.sent) PortEdge.accept →
    ∃ t, Host.Core.run Sys2Proof.core (s.out.length - s.sent) s = .next t ∧ t.received = s.out ∧ t.outItem = none

/-- The items received when reset is asserted are a prefix of the output stream, of any length from what was received so far
up to all of it, and the rest are discarded (R191). That `n` accepting edges deliver exactly `n` items, and that these edges
decide R191's draw `d`, is the model's reading (log entries 9, 20). -/
def Obligations.ResetDiscardsUndelivered : Prop :=
  ∀ (s : State) (n : Nat) (draw : ResetDraw) (rest : List PortEdge), s.DeliveryLegal → s.sent + n ≤ s.out.length →
    s.port = List.replicate n PortEdge.accept ++ PortEdge.reset draw :: rest →
    ∃ u t, Host.Core.run Sys2Proof.core n s = .next u ∧ u.received = s.out.take (s.sent + n) ∧
      step u = .next t ∧ t.out = [] ∧ t.outItem = none

/-! ### What cannot be observed (10_state.md R25, R30; 20_memory.md R51) -/

/-- Two states that differ only in what the spec leaves unspecified stay so at every step, whatever draws their resets
make, and show the host the same pins and the same observation. -/
def Obligations.UnspecifiedStateIsUnobservable : Prop :=
  ∀ s t : State, s.Inv → t.Inv → s.SameMeaning t →
    s.pins = t.pins ∧ s.observation = t.observation ∧
    ∃ s' t', step s = .next s' ∧ step t = .next t' ∧ s'.SameMeaning t'

/-! ### The end of a run (70_reset_and_hazards.md section 5) -/

/-- The end of a run (R201). (b) A run with `ERR = 1` has ended. (a) When commands with END as the last one complete without
error, the run ends exactly when the host has received every item, and its observation is the items received with
`(0, 0)`. It has not ended while the last command is another one than END, nor while a command is to come before the next
reset; what comes at or after that reset makes no difference. That what the host intends to send is what it lists, and one
item an accepting edge, are the model's readings (log entries 9, 20, 21). -/
def Obligations.RunEndsAfterLastEnd : Prop :=
  (∀ s : State, s.err = true → s.ended = true) ∧
  (∀ (s u : State) (is : List Instr) (k n : Nat), s.Inv → s.err = false → (∀ i ∈ is, i.wellFormed = true) →
    execAll (is ++ [.endStream]) s = .next u → u.err = false → s.sent + n = u.out.length → k ≤ n →
    s.port = commandEdges (is ++ [.endStream]) ++ List.replicate n PortEdge.accept →
    ∃ t, Host.Core.run Sys2Proof.core (is.length + 1 + k) s = .next t ∧
      t.observation = (u.out.take (s.sent + k), false, 0) ∧ (t.ended = true ↔ k = n)) ∧
  (∀ (s t : State) (e : PortEdge) (rest : List PortEdge) (w : Word), s.port = e :: rest → e.rst = none → e.cmd = some w →
    step s = .next t → t.err = false → w ≠ 0x90000000#32 → t.ended = false) ∧
  (∀ (s : State) (quiet : List PortEdge) (e : PortEdge) (rest : List PortEdge), s.port = quiet ++ e :: rest →
    (∀ x ∈ quiet, x.rst = none) → e.rst = none → e.cmd.isSome = true → s.err = false → s.ended = false) ∧
  (∀ (s : State) (before after : List PortEdge) (e : PortEdge), e.rst.isSome = true →
    State.ended { s with port := before ++ e :: after } = State.ended { s with port := before })
end

