-- ==== Sys2Proof/Laws/State.lean ====
section
/-! SUPPORT. One lemma per field per state update, true by rfl, so that no later proof unfolds a record update. -/

namespace Sys2Proof.Machine

/-! ### setEntry -/

@[simp] theorem State.setEntry_acc (s : State) (i : Nat) (e : Entry) : (s.setEntry i e).acc = s.acc := rfl
@[simp] theorem State.setEntry_bitpos (s : State) (i : Nat) (e : Entry) : (s.setEntry i e).bitpos = s.bitpos := rfl
@[simp] theorem State.setEntry_table (s : State) (i : Nat) (e : Entry) : (s.setEntry i e).table = CodeTable.write s.table i e := rfl
@[simp] theorem State.setEntry_ldActive (s : State) (i : Nat) (e : Entry) : (s.setEntry i e).ldActive = s.ldActive := rfl
@[simp] theorem State.setEntry_ldIdx (s : State) (i : Nat) (e : Entry) : (s.setEntry i e).ldIdx = s.ldIdx := rfl
@[simp] theorem State.setEntry_ldCur (s : State) (i : Nat) (e : Entry) : (s.setEntry i e).ldCur = s.ldCur := rfl
@[simp] theorem State.setEntry_err (s : State) (i : Nat) (e : Entry) : (s.setEntry i e).err = s.err := rfl
@[simp] theorem State.setEntry_cause (s : State) (i : Nat) (e : Entry) : (s.setEntry i e).cause = s.cause := rfl
@[simp] theorem State.setEntry_out (s : State) (i : Nat) (e : Entry) : (s.setEntry i e).out = s.out := rfl
@[simp] theorem State.setEntry_sent (s : State) (i : Nat) (e : Entry) : (s.setEntry i e).sent = s.sent := rfl
@[simp] theorem State.setEntry_current (s : State) (i : Nat) (e : Entry) : (s.setEntry i e).current = s.current := rfl
@[simp] theorem State.setEntry_port (s : State) (i : Nat) (e : Entry) : (s.setEntry i e).port = s.port := rfl
@[simp] theorem State.setEntry_params (s : State) (i : Nat) (e : Entry) : (s.setEntry i e).params = s.params := rfl

/-! ### clearTable -/

@[simp] theorem State.clearTable_acc (s : State) : (s.clearTable).acc = s.acc := rfl
@[simp] theorem State.clearTable_bitpos (s : State) : (s.clearTable).bitpos = s.bitpos := rfl
@[simp] theorem State.clearTable_table (s : State) : (s.clearTable).table = CodeTable.clearValid s.table := rfl
@[simp] theorem State.clearTable_ldActive (s : State) : (s.clearTable).ldActive = s.ldActive := rfl
@[simp] theorem State.clearTable_ldIdx (s : State) : (s.clearTable).ldIdx = s.ldIdx := rfl
@[simp] theorem State.clearTable_ldCur (s : State) : (s.clearTable).ldCur = s.ldCur := rfl
@[simp] theorem State.clearTable_err (s : State) : (s.clearTable).err = s.err := rfl
@[simp] theorem State.clearTable_cause (s : State) : (s.clearTable).cause = s.cause := rfl
@[simp] theorem State.clearTable_out (s : State) : (s.clearTable).out = s.out := rfl
@[simp] theorem State.clearTable_sent (s : State) : (s.clearTable).sent = s.sent := rfl
@[simp] theorem State.clearTable_current (s : State) : (s.clearTable).current = s.current := rfl
@[simp] theorem State.clearTable_port (s : State) : (s.clearTable).port = s.port := rfl
@[simp] theorem State.clearTable_params (s : State) : (s.clearTable).params = s.params := rfl

/-! ### setLoad -/

@[simp] theorem State.setLoad_acc (s : State) (idx cur : Short) : (s.setLoad idx cur).acc = s.acc := rfl
@[simp] theorem State.setLoad_bitpos (s : State) (idx cur : Short) : (s.setLoad idx cur).bitpos = s.bitpos := rfl
@[simp] theorem State.setLoad_table (s : State) (idx cur : Short) : (s.setLoad idx cur).table = s.table := rfl
@[simp] theorem State.setLoad_ldActive (s : State) (idx cur : Short) : (s.setLoad idx cur).ldActive = true := rfl
@[simp] theorem State.setLoad_ldIdx (s : State) (idx cur : Short) : (s.setLoad idx cur).ldIdx = idx := rfl
@[simp] theorem State.setLoad_ldCur (s : State) (idx cur : Short) : (s.setLoad idx cur).ldCur = cur := rfl
@[simp] theorem State.setLoad_err (s : State) (idx cur : Short) : (s.setLoad idx cur).err = s.err := rfl
@[simp] theorem State.setLoad_cause (s : State) (idx cur : Short) : (s.setLoad idx cur).cause = s.cause := rfl
@[simp] theorem State.setLoad_out (s : State) (idx cur : Short) : (s.setLoad idx cur).out = s.out := rfl
@[simp] theorem State.setLoad_sent (s : State) (idx cur : Short) : (s.setLoad idx cur).sent = s.sent := rfl
@[simp] theorem State.setLoad_current (s : State) (idx cur : Short) : (s.setLoad idx cur).current = s.current := rfl
@[simp] theorem State.setLoad_port (s : State) (idx cur : Short) : (s.setLoad idx cur).port = s.port := rfl
@[simp] theorem State.setLoad_params (s : State) (idx cur : Short) : (s.setLoad idx cur).params = s.params := rfl

/-! ### endLoad -/

@[simp] theorem State.endLoad_acc (s : State) : (s.endLoad).acc = s.acc := rfl
@[simp] theorem State.endLoad_bitpos (s : State) : (s.endLoad).bitpos = s.bitpos := rfl
@[simp] theorem State.endLoad_table (s : State) : (s.endLoad).table = s.table := rfl
@[simp] theorem State.endLoad_ldActive (s : State) : (s.endLoad).ldActive = false := rfl
@[simp] theorem State.endLoad_ldIdx (s : State) : (s.endLoad).ldIdx = s.ldIdx := rfl
@[simp] theorem State.endLoad_ldCur (s : State) : (s.endLoad).ldCur = s.ldCur := rfl
@[simp] theorem State.endLoad_err (s : State) : (s.endLoad).err = s.err := rfl
@[simp] theorem State.endLoad_cause (s : State) : (s.endLoad).cause = s.cause := rfl
@[simp] theorem State.endLoad_out (s : State) : (s.endLoad).out = s.out := rfl
@[simp] theorem State.endLoad_sent (s : State) : (s.endLoad).sent = s.sent := rfl
@[simp] theorem State.endLoad_current (s : State) : (s.endLoad).current = s.current := rfl
@[simp] theorem State.endLoad_port (s : State) : (s.endLoad).port = s.port := rfl
@[simp] theorem State.endLoad_params (s : State) : (s.endLoad).params = s.params := rfl

/-! ### setCursor -/

@[simp] theorem State.setCursor_acc (s : State) (cur : Short) : (s.setCursor cur).acc = s.acc := rfl
@[simp] theorem State.setCursor_bitpos (s : State) (cur : Short) : (s.setCursor cur).bitpos = s.bitpos := rfl
@[simp] theorem State.setCursor_table (s : State) (cur : Short) : (s.setCursor cur).table = s.table := rfl
@[simp] theorem State.setCursor_ldActive (s : State) (cur : Short) : (s.setCursor cur).ldActive = s.ldActive := rfl
@[simp] theorem State.setCursor_ldIdx (s : State) (cur : Short) : (s.setCursor cur).ldIdx = s.ldIdx := rfl
@[simp] theorem State.setCursor_ldCur (s : State) (cur : Short) : (s.setCursor cur).ldCur = cur := rfl
@[simp] theorem State.setCursor_err (s : State) (cur : Short) : (s.setCursor cur).err = s.err := rfl
@[simp] theorem State.setCursor_cause (s : State) (cur : Short) : (s.setCursor cur).cause = s.cause := rfl
@[simp] theorem State.setCursor_out (s : State) (cur : Short) : (s.setCursor cur).out = s.out := rfl
@[simp] theorem State.setCursor_sent (s : State) (cur : Short) : (s.setCursor cur).sent = s.sent := rfl
@[simp] theorem State.setCursor_current (s : State) (cur : Short) : (s.setCursor cur).current = s.current := rfl
@[simp] theorem State.setCursor_port (s : State) (cur : Short) : (s.setCursor cur).port = s.port := rfl
@[simp] theorem State.setCursor_params (s : State) (cur : Short) : (s.setCursor cur).params = s.params := rfl

/-! ### setAcc -/

@[simp] theorem State.setAcc_acc (s : State) (acc : Byte) (pos : BitVec 3) : (s.setAcc acc pos).acc = acc := rfl
@[simp] theorem State.setAcc_bitpos (s : State) (acc : Byte) (pos : BitVec 3) : (s.setAcc acc pos).bitpos = pos := rfl
@[simp] theorem State.setAcc_table (s : State) (acc : Byte) (pos : BitVec 3) : (s.setAcc acc pos).table = s.table := rfl
@[simp] theorem State.setAcc_ldActive (s : State) (acc : Byte) (pos : BitVec 3) : (s.setAcc acc pos).ldActive = s.ldActive := rfl
@[simp] theorem State.setAcc_ldIdx (s : State) (acc : Byte) (pos : BitVec 3) : (s.setAcc acc pos).ldIdx = s.ldIdx := rfl
@[simp] theorem State.setAcc_ldCur (s : State) (acc : Byte) (pos : BitVec 3) : (s.setAcc acc pos).ldCur = s.ldCur := rfl
@[simp] theorem State.setAcc_err (s : State) (acc : Byte) (pos : BitVec 3) : (s.setAcc acc pos).err = s.err := rfl
@[simp] theorem State.setAcc_cause (s : State) (acc : Byte) (pos : BitVec 3) : (s.setAcc acc pos).cause = s.cause := rfl
@[simp] theorem State.setAcc_out (s : State) (acc : Byte) (pos : BitVec 3) : (s.setAcc acc pos).out = s.out := rfl
@[simp] theorem State.setAcc_sent (s : State) (acc : Byte) (pos : BitVec 3) : (s.setAcc acc pos).sent = s.sent := rfl
@[simp] theorem State.setAcc_current (s : State) (acc : Byte) (pos : BitVec 3) : (s.setAcc acc pos).current = s.current := rfl
@[simp] theorem State.setAcc_port (s : State) (acc : Byte) (pos : BitVec 3) : (s.setAcc acc pos).port = s.port := rfl
@[simp] theorem State.setAcc_params (s : State) (acc : Byte) (pos : BitVec 3) : (s.setAcc acc pos).params = s.params := rfl

/-! ### emit -/

@[simp] theorem State.emit_acc (s : State) (b : Byte) (last : Bool) : (s.emit b last).acc = s.acc := rfl
@[simp] theorem State.emit_bitpos (s : State) (b : Byte) (last : Bool) : (s.emit b last).bitpos = s.bitpos := rfl
@[simp] theorem State.emit_table (s : State) (b : Byte) (last : Bool) : (s.emit b last).table = s.table := rfl
@[simp] theorem State.emit_ldActive (s : State) (b : Byte) (last : Bool) : (s.emit b last).ldActive = s.ldActive := rfl
@[simp] theorem State.emit_ldIdx (s : State) (b : Byte) (last : Bool) : (s.emit b last).ldIdx = s.ldIdx := rfl
@[simp] theorem State.emit_ldCur (s : State) (b : Byte) (last : Bool) : (s.emit b last).ldCur = s.ldCur := rfl
@[simp] theorem State.emit_err (s : State) (b : Byte) (last : Bool) : (s.emit b last).err = s.err := rfl
@[simp] theorem State.emit_cause (s : State) (b : Byte) (last : Bool) : (s.emit b last).cause = s.cause := rfl
@[simp] theorem State.emit_out (s : State) (b : Byte) (last : Bool) : (s.emit b last).out = s.out ++ [{ data := b, last := last }] := rfl
@[simp] theorem State.emit_sent (s : State) (b : Byte) (last : Bool) : (s.emit b last).sent = s.sent := rfl
@[simp] theorem State.emit_current (s : State) (b : Byte) (last : Bool) : (s.emit b last).current = s.current := rfl
@[simp] theorem State.emit_port (s : State) (b : Byte) (last : Bool) : (s.emit b last).port = s.port := rfl
@[simp] theorem State.emit_params (s : State) (b : Byte) (last : Bool) : (s.emit b last).params = s.params := rfl

/-! ### accept -/

@[simp] theorem State.accept_acc (s : State) (w : Word) : (s.accept w).acc = s.acc := rfl
@[simp] theorem State.accept_bitpos (s : State) (w : Word) : (s.accept w).bitpos = s.bitpos := rfl
@[simp] theorem State.accept_table (s : State) (w : Word) : (s.accept w).table = s.table := rfl
@[simp] theorem State.accept_ldActive (s : State) (w : Word) : (s.accept w).ldActive = s.ldActive := rfl
@[simp] theorem State.accept_ldIdx (s : State) (w : Word) : (s.accept w).ldIdx = s.ldIdx := rfl
@[simp] theorem State.accept_ldCur (s : State) (w : Word) : (s.accept w).ldCur = s.ldCur := rfl
@[simp] theorem State.accept_err (s : State) (w : Word) : (s.accept w).err = s.err := rfl
@[simp] theorem State.accept_cause (s : State) (w : Word) : (s.accept w).cause = s.cause := rfl
@[simp] theorem State.accept_out (s : State) (w : Word) : (s.accept w).out = s.out := rfl
@[simp] theorem State.accept_sent (s : State) (w : Word) : (s.accept w).sent = s.sent := rfl
@[simp] theorem State.accept_current (s : State) (w : Word) : (s.accept w).current = some w := rfl
@[simp] theorem State.accept_port (s : State) (w : Word) : (s.accept w).port = s.port := rfl
@[simp] theorem State.accept_params (s : State) (w : Word) : (s.accept w).params = s.params := rfl

/-! ### raise -/

@[simp] theorem State.raise_acc (s : State) (c : ErrorCause) : (s.raise c).acc = s.acc := rfl
@[simp] theorem State.raise_bitpos (s : State) (c : ErrorCause) : (s.raise c).bitpos = s.bitpos := rfl
@[simp] theorem State.raise_table (s : State) (c : ErrorCause) : (s.raise c).table = s.table := rfl
@[simp] theorem State.raise_ldActive (s : State) (c : ErrorCause) : (s.raise c).ldActive = s.ldActive := rfl
@[simp] theorem State.raise_ldIdx (s : State) (c : ErrorCause) : (s.raise c).ldIdx = s.ldIdx := rfl
@[simp] theorem State.raise_ldCur (s : State) (c : ErrorCause) : (s.raise c).ldCur = s.ldCur := rfl
@[simp] theorem State.raise_err (s : State) (c : ErrorCause) : (s.raise c).err = true := rfl
@[simp] theorem State.raise_cause (s : State) (c : ErrorCause) : (s.raise c).cause = c.code := rfl
@[simp] theorem State.raise_out (s : State) (c : ErrorCause) : (s.raise c).out = s.out := rfl
@[simp] theorem State.raise_sent (s : State) (c : ErrorCause) : (s.raise c).sent = s.sent := rfl
@[simp] theorem State.raise_current (s : State) (c : ErrorCause) : (s.raise c).current = s.current := rfl
@[simp] theorem State.raise_port (s : State) (c : ErrorCause) : (s.raise c).port = s.port := rfl
@[simp] theorem State.raise_params (s : State) (c : ErrorCause) : (s.raise c).params = s.params := rfl

/-! ### applyReset -/

@[simp] theorem State.applyReset_acc (s : State) (d : ResetDraw) : (s.applyReset d).acc = 0x00 := rfl
@[simp] theorem State.applyReset_bitpos (s : State) (d : ResetDraw) : (s.applyReset d).bitpos = 0 := rfl
@[simp] theorem State.applyReset_table (s : State) (d : ResetDraw) : (s.applyReset d).table = CodeTable.ofDraw s.params.capacity d.stale := rfl
@[simp] theorem State.applyReset_ldActive (s : State) (d : ResetDraw) : (s.applyReset d).ldActive = false := rfl
@[simp] theorem State.applyReset_ldIdx (s : State) (d : ResetDraw) : (s.applyReset d).ldIdx = d.ldIdx := rfl
@[simp] theorem State.applyReset_ldCur (s : State) (d : ResetDraw) : (s.applyReset d).ldCur = d.ldCur := rfl
@[simp] theorem State.applyReset_err (s : State) (d : ResetDraw) : (s.applyReset d).err = false := rfl
@[simp] theorem State.applyReset_cause (s : State) (d : ResetDraw) : (s.applyReset d).cause = 0 := rfl
@[simp] theorem State.applyReset_out (s : State) (d : ResetDraw) : (s.applyReset d).out = [] := rfl
@[simp] theorem State.applyReset_sent (s : State) (d : ResetDraw) : (s.applyReset d).sent = 0 := rfl
@[simp] theorem State.applyReset_current (s : State) (d : ResetDraw) : (s.applyReset d).current = none := rfl
@[simp] theorem State.applyReset_port (s : State) (d : ResetDraw) : (s.applyReset d).port = s.port := rfl
@[simp] theorem State.applyReset_params (s : State) (d : ResetDraw) : (s.applyReset d).params = s.params := rfl

/-! ### entry: reads of the table after updates that do not write it -/

@[simp] theorem State.setLoad_entry (s : State) (idx cur : Short) (j : Nat) : (s.setLoad idx cur).entry j = s.entry j := rfl
@[simp] theorem State.endLoad_entry (s : State) (j : Nat) : (s.endLoad).entry j = s.entry j := rfl
@[simp] theorem State.setCursor_entry (s : State) (cur : Short) (j : Nat) : (s.setCursor cur).entry j = s.entry j := rfl
@[simp] theorem State.setAcc_entry (s : State) (acc : Byte) (pos : BitVec 3) (j : Nat) : (s.setAcc acc pos).entry j = s.entry j := rfl
@[simp] theorem State.emit_entry (s : State) (b : Byte) (last : Bool) (j : Nat) : (s.emit b last).entry j = s.entry j := rfl
@[simp] theorem State.accept_entry (s : State) (w : Word) (j : Nat) : (s.accept w).entry j = s.entry j := rfl
@[simp] theorem State.raise_entry (s : State) (c : ErrorCause) (j : Nat) : (s.raise c).entry j = s.entry j := rfl

theorem State.entry_eq (s : State) (i : Nat) : s.entry i = CodeTable.read s.table i := rfl

/-! ### deliver -/

theorem State.deliver_eq (s : State) : s.deliver = { s with sent := s.deliver.sent } := by
  unfold State.deliver; split <;> rfl

theorem State.deliver_sent (s : State) :
    s.deliver.sent = if s.sent < s.out.length then s.sent + 1 else s.sent := by
  unfold State.deliver; split <;> rfl

@[simp] theorem State.deliver_acc (s : State) : s.deliver.acc = s.acc := by rw [s.deliver_eq]
@[simp] theorem State.deliver_bitpos (s : State) : s.deliver.bitpos = s.bitpos := by rw [s.deliver_eq]
@[simp] theorem State.deliver_table (s : State) : s.deliver.table = s.table := by rw [s.deliver_eq]
@[simp] theorem State.deliver_ldActive (s : State) : s.deliver.ldActive = s.ldActive := by rw [s.deliver_eq]
@[simp] theorem State.deliver_ldIdx (s : State) : s.deliver.ldIdx = s.ldIdx := by rw [s.deliver_eq]
@[simp] theorem State.deliver_ldCur (s : State) : s.deliver.ldCur = s.ldCur := by rw [s.deliver_eq]
@[simp] theorem State.deliver_err (s : State) : s.deliver.err = s.err := by rw [s.deliver_eq]
@[simp] theorem State.deliver_cause (s : State) : s.deliver.cause = s.cause := by rw [s.deliver_eq]
@[simp] theorem State.deliver_out (s : State) : s.deliver.out = s.out := by rw [s.deliver_eq]
@[simp] theorem State.deliver_current (s : State) : s.deliver.current = s.current := by rw [s.deliver_eq]
@[simp] theorem State.deliver_port (s : State) : s.deliver.port = s.port := by rw [s.deliver_eq]
@[simp] theorem State.deliver_params (s : State) : s.deliver.params = s.params := by rw [s.deliver_eq]
@[simp] theorem State.deliver_entry (s : State) (j : Nat) : s.deliver.entry j = s.entry j := by rw [s.deliver_eq]; rfl

/-! ### The guard of every command -/

@[simp] theorem State.unlessError_running (s : State) (o : Outcome) (h : s.err = false) : s.unlessError o = o := by
  simp [State.unlessError, h]

@[simp] theorem State.unlessError_error (s : State) (o : Outcome) (h : s.err = true) : s.unlessError o = .next s := by
  simp [State.unlessError, h]

end Sys2Proof.Machine
end

