-- ==== Sys2Proof/Laws/Table.lean ====
section
/-! SUPPORT. Laws of the code-table store: read after write, the canonical form kept by every operation, the bits of an entry. -/

namespace Sys2Proof.Machine

open CodeTable

/-! ### The canonical form -/

@[simp] theorem CodeTable.read_nil (i : Nat) : read [] i = Entry.blank := rfl

theorem CodeTable.read_cons (k : Nat) (e : Entry) (t : CodeTable) (i : Nat) :
    read ((k, e) :: t) i = if k = i then e else read t i := rfl

@[simp] theorem Memory.wf_nil : Memory.wf [] = true := rfl

theorem Memory.wf_cons (k : Nat) (e : Entry) (t : CodeTable) :
    Memory.wf ((k, e) :: t) = true ↔ (∀ p ∈ t, k < p.1) ∧ e ≠ Entry.blank ∧ Memory.wf t = true := by
  simp only [Memory.wf, List.pairwise_cons, List.all_cons, Bool.and_eq_true, decide_eq_true_eq]
  tauto

/-- An index that no entry carries reads as blank. -/
theorem CodeTable.read_of_not_mem (t : CodeTable) (i : Nat) (h : ∀ p ∈ t, p.1 ≠ i) : read t i = Entry.blank := by
  induction t with
  | nil => rfl
  | cons p t ih =>
    obtain ⟨k, e⟩ := p
    rw [read_cons, if_neg (h (k, e) (by simp))]
    exact ih (fun p hp => h p (by simp [hp]))

/-- In a canonical table an entry reads as the list holds it. -/
theorem CodeTable.read_of_mem (t : CodeTable) (ht : Memory.wf t = true) (i : Nat) (e : Entry) (h : (i, e) ∈ t) :
    read t i = e := by
  induction t with
  | nil => simp at h
  | cons p t ih =>
    obtain ⟨k, x⟩ := p
    rw [Memory.wf_cons] at ht
    rw [read_cons]
    rcases List.mem_cons.1 h with h | h
    · simp_all
    · have : k < i := ht.1 (i, e) h
      rw [if_neg (by omega)]
      exact ih ht.2.2 h

/-- What reads as something other than blank is listed. -/
theorem CodeTable.mem_of_read_ne (t : CodeTable) (i : Nat) (h : read t i ≠ Entry.blank) : (i, read t i) ∈ t := by
  induction t with
  | nil => simp at h
  | cons p t ih =>
    obtain ⟨k, x⟩ := p
    rw [read_cons] at h ⊢
    split at h
    · simp_all
    · rename_i hk
      rw [if_neg hk]
      exact List.mem_cons_of_mem _ (ih h)

/-! ### Write -/

/-- Where the entries of a written table come from. -/
theorem CodeTable.mem_write (t : CodeTable) (i : Nat) (e : Entry) (p : Nat × Entry) (h : p ∈ write t i e) :
    p ∈ t ∨ p = (i, e) := by
  induction t with
  | nil => simp only [write] at h; split at h <;> simp_all
  | cons q t ih =>
    obtain ⟨k, x⟩ := q
    simp only [write] at h
    split at h
    · split at h
      · exact .inl h
      · rcases List.mem_cons.1 h with h | h
        · exact .inr h
        · exact .inl h
    · split at h
      · split at h
        · exact .inl (List.mem_cons_of_mem _ h)
        · rcases List.mem_cons.1 h with h | h
          · exact .inr h
          · exact .inl (List.mem_cons_of_mem _ h)
      · rcases List.mem_cons.1 h with h | h
        · simp [h]
        · rcases ih h with h | h <;> simp [h]

/-- A write keeps the canonical form. -/
theorem CodeTable.write_wf (t : CodeTable) (i : Nat) (e : Entry) (ht : Memory.wf t = true) :
    Memory.wf (write t i e) = true := by
  induction t with
  | nil => simp only [write]; split <;> simp_all [Memory.wf_cons]
  | cons q t ih =>
    obtain ⟨k, x⟩ := q
    have hc := (Memory.wf_cons k x t).1 ht
    simp only [write]
    split
    · rename_i hik
      split
      · exact ht
      · rename_i he
        refine (Memory.wf_cons _ _ _).2 ⟨?_, he, ht⟩
        intro p hp
        rcases List.mem_cons.1 hp with h | h
        · simp [h, hik]
        · exact lt_trans hik (hc.1 p h)
    · split
      · rename_i hik
        subst hik
        split
        · exact hc.2.2
        · rename_i he
          exact (Memory.wf_cons _ _ _).2 ⟨hc.1, he, hc.2.2⟩
      · refine (Memory.wf_cons _ _ _).2 ⟨?_, hc.2.1, ih hc.2.2⟩
        intro p hp
        rcases mem_write t i e p hp with h | h
        · exact hc.1 p h
        · rw [h]; dsimp only; omega

/-- A read after a write to another index gives what it gave before. -/
theorem CodeTable.read_write_ne (t : CodeTable) (i j : Nat) (e : Entry) (h : j ≠ i) :
    read (write t i e) j = read t j := by
  induction t with
  | nil => simp only [write]; split <;> simp [read_cons, h.symm]
  | cons q t ih =>
    obtain ⟨k, x⟩ := q
    simp only [write]
    split
    · split
      · rfl
      · rw [read_cons, if_neg h.symm]
    · split
      · rename_i hik
        subst hik
        split <;> simp [read_cons, h.symm]
      · simp only [read_cons, ih]

/-- A read after a write to the same index of a canonical table gives the value written. -/
theorem CodeTable.read_write_self (t : CodeTable) (i : Nat) (e : Entry) (ht : Memory.wf t = true) :
    read (write t i e) i = e := by
  induction t with
  | nil => simp only [write]; split <;> simp_all [read_cons]
  | cons q t ih =>
    obtain ⟨k, x⟩ := q
    have hc := (Memory.wf_cons k x t).1 ht
    simp only [write]
    split
    · rename_i hik
      split
      · rename_i he
        rw [he]
        refine read_of_not_mem _ _ (fun p hp => ?_)
        rcases List.mem_cons.1 hp with h | h
        · rw [h]; dsimp only; omega
        · have := hc.1 p h
          omega
      · simp [read_cons]
    · split
      · rename_i hik
        subst hik
        split
        · rename_i he
          rw [he]
          refine read_of_not_mem _ _ (fun p hp => ?_)
          have := hc.1 p hp
          omega
        · simp [read_cons]
      · rename_i h1 h2
        rw [read_cons, if_neg (by omega), ih hc.2.2]

/-- Both cases of a read after a write. -/
theorem CodeTable.read_write (t : CodeTable) (i j : Nat) (e : Entry) (ht : Memory.wf t = true) :
    read (write t i e) j = if j = i then e else read t j := by
  split
  · subst_vars; exact read_write_self t _ e ht
  · exact read_write_ne t i j e ‹_›

/-! ### clearValid -/

theorem CodeTable.clearValid_cons (k : Nat) (e : Entry) (t : CodeTable) :
    clearValid ((k, e) :: t) =
      if ({ e with valid := false } : Entry) = Entry.blank then clearValid t
      else (k, { e with valid := false }) :: clearValid t := by
  simp only [clearValid, List.map_cons, List.filter_cons, ne_eq, decide_not, Bool.not_eq_eq_eq_not, Bool.not_true,
    decide_eq_false_iff_not, ite_not]

/-- The entries of a cleared table are entries of the table, no longer valid. -/
theorem CodeTable.mem_clearValid (t : CodeTable) (p : Nat × Entry) (h : p ∈ clearValid t) :
    ∃ q ∈ t, p = (q.1, { q.2 with valid := false }) := by
  simp only [clearValid, List.mem_filter, List.mem_map] at h
  obtain ⟨⟨q, hq, rfl⟩, -⟩ := h
  exact ⟨q, hq, rfl⟩

/-- TBL_CLR keeps the canonical form. -/
theorem CodeTable.clearValid_wf (t : CodeTable) (ht : Memory.wf t = true) : Memory.wf (clearValid t) = true := by
  induction t with
  | nil => rfl
  | cons q t ih =>
    obtain ⟨k, x⟩ := q
    have hc := (Memory.wf_cons k x t).1 ht
    rw [clearValid_cons]
    split
    · exact ih hc.2.2
    · rename_i he
      refine (Memory.wf_cons _ _ _).2 ⟨?_, he, ih hc.2.2⟩
      intro p hp
      obtain ⟨q, hq, rfl⟩ := mem_clearValid t p hp
      exact hc.1 q hq

/-- Every entry of a cleared canonical table is the entry it was, no longer valid. -/
theorem CodeTable.read_clearValid (t : CodeTable) (i : Nat) (ht : Memory.wf t = true) :
    read (clearValid t) i = { read t i with valid := false } := by
  induction t with
  | nil => rfl
  | cons q t ih =>
    obtain ⟨k, x⟩ := q
    have hc := (Memory.wf_cons k x t).1 ht
    rw [clearValid_cons, read_cons]
    by_cases hk : k = i
    · subst hk
      rw [if_pos rfl]
      split
      · rename_i he
        rw [he]
        refine read_of_not_mem _ _ (fun p hp => ?_)
        obtain ⟨q, hq, rfl⟩ := mem_clearValid t p hp
        have := hc.1 q hq
        dsimp only
        omega
      · rw [read_cons, if_pos rfl]
    · rw [if_neg hk, ← ih hc.2.2]
      split
      · rfl
      · rw [read_cons, if_neg hk]

/-! ### The table a reset leaves -/

/-- A property of tables that holds of the empty one and is kept by every write a reset makes holds of its table. -/
theorem CodeTable.ofDraw_induction (n : Nat) (stale : List StaleEntry) (P : CodeTable → Prop) (h0 : P [])
    (hw : ∀ (t : CodeTable) (x : StaleEntry), P t → x.index < n → P (write t x.index { valid := false, len := x.len, bits := x.bits })) :
    P (ofDraw n stale) := by
  unfold ofDraw
  generalize ([] : CodeTable) = t at h0
  induction stale generalizing t with
  | nil => exact h0
  | cons x xs ih =>
    rw [List.foldl_cons]
    apply ih
    split
    · exact hw t x h0 ‹_›
    · exact h0

/-- Reset leaves a canonical table of existing entries, none of them valid. -/
theorem CodeTable.ofDraw_legal (n : Nat) (stale : List StaleEntry) :
    Memory.wf (ofDraw n stale) = true ∧ (∀ p ∈ ofDraw n stale, p.1 < n) ∧
      ∀ i, (read (ofDraw n stale) i).valid = false := by
  apply ofDraw_induction n stale (fun t => Memory.wf t = true ∧ (∀ p ∈ t, p.1 < n) ∧ ∀ i, (read t i).valid = false)
  · exact ⟨rfl, by simp, fun _ => rfl⟩
  · rintro t x ⟨h1, h2, h3⟩ hx
    refine ⟨write_wf t _ _ h1, fun p hp => ?_, fun i => ?_⟩
    · rcases mem_write t _ _ p hp with h | h
      · exact h2 p h
      · rw [h]; exact hx
    · rw [read_write t _ _ _ h1]
      split
      · rfl
      · exact h3 i

/-! ### Bits of an entry -/

/-- `setBit` writes one bit and leaves the others. -/
theorem getLsbD_setBit (bits : CodeBits) (i j : Nat) (b : Bool) (hi : i < 1023) :
    (setBit bits i b).getLsbD j = if j = i then b else bits.getLsbD j := by
  unfold setBit
  cases b <;> by_cases h : j = i <;> by_cases hj : j < 1023 <;>
    simp [BitVec.getLsbD_twoPow, h, hj] <;> first | omega | simp_all

/-- The code of an entry has `len` bits. -/
@[simp] theorem Entry.code_length (e : Entry) : e.code.length = e.len.toNat := by simp [Entry.code]

/-- Bit `j` of an entry's code. -/
theorem Entry.code_getD (e : Entry) (j : Nat) (h : j < e.len.toNat) : e.code.getD j false = e.bits.getLsbD j := by
  simp [Entry.code, List.getD, h]

/-- Entries of one length and with the same bits below it have the same code. -/
theorem Entry.code_congr (a b : Entry) (hl : a.len = b.len)
    (hb : ∀ j, j < a.len.toNat → a.bits.getLsbD j = b.bits.getLsbD j) : a.code = b.code := by
  unfold Entry.code
  rw [← hl]
  apply List.map_congr_left
  intro j hj
  exact hb j (List.mem_range.1 hj)

/-- `storeBits` writes the data's first `k` bits at the cursor and leaves the others. -/
theorem getLsbD_storeBits (bits : CodeBits) (cur : Nat) (data : Half) (k j : Nat) (hk : cur + k ≤ 1023) :
    (storeBits bits cur data k).getLsbD j =
      if cur ≤ j ∧ j < cur + k then dataBit data (j - cur) else bits.getLsbD j := by
  induction k with
  | zero => rw [if_neg (by omega)]; rfl
  | succ k ih =>
    have hs : storeBits bits cur data (k + 1) = setBit (storeBits bits cur data k) (cur + k) (dataBit data k) := by
      simp [storeBits, List.range_succ]
    rw [hs, getLsbD_setBit _ _ _ _ (by omega), ih (by omega)]
    by_cases h : j = cur + k
    · simp [h]
    · rw [if_neg h]
      by_cases h2 : cur ≤ j ∧ j < cur + k
      · rw [if_pos h2, if_pos (by omega)]
      · rw [if_neg h2, if_neg (by omega)]

end Sys2Proof.Machine
end

