-- ==== Sys2Proof/Laws/Packing.lean ====
section
/-! SUPPORT. Laws of the bit step: what PutBit and a sequence of them do to the accumulator, the counter and the output stream. -/

namespace Sys2Proof.Machine

/-- Bit `7 - j` of byte `t` of a bit sequence is `s_(8t+j)` (20_memory.md R54). -/
theorem getLsbD_byteAt (bits : List Bool) (t j : Nat) (h : j < 8) :
    (byteAt bits t).getLsbD (7 - j) = bits.getD (8 * t + j) false := by
  have hcat : ∀ a0 a1 a2 a3 a4 a5 a6 a7 : Bool, ∀ j : Fin 8,
      (BitVec.ofBool a0 ++ BitVec.ofBool a1 ++ BitVec.ofBool a2 ++ BitVec.ofBool a3 ++
        BitVec.ofBool a4 ++ BitVec.ofBool a5 ++ BitVec.ofBool a6 ++ BitVec.ofBool a7).getLsbD (7 - j) =
      [a0, a1, a2, a3, a4, a5, a6, a7][j] := by decide
  have := hcat (bits.getD (8 * t) false) (bits.getD (8 * t + 1) false) (bits.getD (8 * t + 2) false)
    (bits.getD (8 * t + 3) false) (bits.getD (8 * t + 4) false) (bits.getD (8 * t + 5) false)
    (bits.getD (8 * t + 6) false) (bits.getD (8 * t + 7) false) ⟨j, h⟩
  refine Eq.trans this ?_
  interval_cases j <;> rfl

/-- Bytes are equal when their bits, counted from the most significant, are. -/
theorem byte_ext (a b : Byte) (h : ∀ j, j < 8 → a.getLsbD (7 - j) = b.getLsbD (7 - j)) : a = b := by
  apply BitVec.eq_of_getLsbD_eq
  intro i hi
  have := h (7 - i) (by omega)
  rwa [show 7 - (7 - i) = i by omega] at this

/-- A byte depends only on the bits of its own range. -/
theorem byteAt_congr (a b : List Bool) (t u : Nat)
    (h : ∀ j, j < 8 → a.getD (8 * t + j) false = b.getD (8 * u + j) false) : byteAt a t = byteAt b u := by
  apply byte_ext
  intro j hj
  rw [getLsbD_byteAt _ _ _ hj, getLsbD_byteAt _ _ _ hj, h j hj]

/-- R23 bit by bit: every position from `BITPOS` on is 0. -/
theorem State.accTailZero_iff (s : State) :
    s.AccTailZero ↔ ∀ j, s.bitpos.toNat ≤ j → j < 8 → s.acc.getLsbD (7 - j) = false := by
  have hp := s.bitpos.isLt
  have hand : ∀ i, (s.acc &&& (0xFF#8 >>> s.bitpos.toNat)).getLsbD i =
      (s.acc.getLsbD i && decide (s.bitpos.toNat + i < 8)) := by
    intro i
    rw [BitVec.getLsbD_and, BitVec.getLsbD_ushiftRight]
    have : (0xFF#8).getLsbD (s.bitpos.toNat + i) = decide (s.bitpos.toNat + i < 8) := by
      rw [show (0xFF#8) = BitVec.allOnes 8 by rfl, BitVec.getLsbD_allOnes]
    rw [this]
  constructor
  · intro h j hj h8
    have := congrArg (fun x => BitVec.getLsbD x (7 - j)) h
    simp only [hand, BitVec.getLsbD_zero] at this
    rw [decide_eq_true (by omega), Bool.and_true] at this
    exact this
  · intro h
    apply BitVec.eq_of_getLsbD_eq
    intro i hi
    rw [hand, BitVec.getLsbD_zero]
    by_cases hc : s.bitpos.toNat + i < 8
    · have := h (7 - i) (by omega) (by omega)
      rw [show 7 - (7 - i) = i by omega] at this
      simp [this]
    · simp [hc]

@[simp] theorem State.heldBits_length (s : State) : s.heldBits.length = s.bitpos.toNat := by simp [State.heldBits]

theorem State.heldBits_getD (s : State) (j : Nat) (h : j < s.bitpos.toNat) :
    s.heldBits.getD j false = s.acc.getLsbD (7 - j) := by
  simp [State.heldBits, List.getD, h]

/-- With R23 the accumulator is the byte of the bits it holds. -/
theorem State.acc_eq_byteAt (s : State) (h : s.AccTailZero) : s.acc = byteAt s.heldBits 0 := by
  apply byte_ext
  intro j hj
  rw [getLsbD_byteAt _ _ _ hj, Nat.mul_zero, Nat.zero_add]
  by_cases hp : j < s.bitpos.toNat
  · rw [s.heldBits_getD j hp]
  · rw [(s.accTailZero_iff.1 h) j (by omega) hj, List.getD_eq_default]
    simp; omega

/-- A state whose accumulator is the byte of a sequence of `BITPOS` bits holds that sequence, and R23 holds. -/
theorem State.heldBits_of_acc (s : State) (bits : List Bool) (hl : bits.length = s.bitpos.toNat)
    (ha : s.acc = byteAt bits 0) : s.heldBits = bits ∧ s.AccTailZero := by
  have hp := s.bitpos.isLt
  constructor
  · apply List.ext_getElem
    · simp [hl]
    · intro j h1 h2
      have hj : j < s.bitpos.toNat := by simpa using h1
      have := s.heldBits_getD j hj
      rw [ha, getLsbD_byteAt _ _ _ (by omega), Nat.mul_zero, Nat.zero_add, List.getD_eq_getElem _ _ h1,
        List.getD_eq_getElem _ _ h2] at this
      exact this
  · rw [s.accTailZero_iff]
    intro j h1 h2
    rw [ha, getLsbD_byteAt _ _ _ h2, Nat.mul_zero, Nat.zero_add, List.getD_eq_default]
    omega

/-- The accumulator with one more bit placed. -/
theorem State.acc_putBit (s : State) (b : Bool) (h : s.AccTailZero) :
    (if b then s.acc ||| (0x80#8 >>> s.bitpos.toNat) else s.acc) = byteAt (s.heldBits ++ [b]) 0 := by
  have hp := s.bitpos.isLt
  apply byte_ext
  intro j hj
  rw [getLsbD_byteAt _ _ _ hj, Nat.mul_zero, Nat.zero_add]
  have h80 : (0x80#8 >>> s.bitpos.toNat).getLsbD (7 - j) = decide (j = s.bitpos.toNat) := by
    rw [BitVec.getLsbD_ushiftRight, show (0x80#8) = BitVec.twoPow 8 7 by rfl, BitVec.getLsbD_twoPow]
    by_cases hc : j = s.bitpos.toNat <;> simp [hc] <;> omega
  rcases lt_trichotomy j s.bitpos.toNat with hc | hc | hc
  · rw [List.getD_append _ _ _ _ (by simpa using hc), s.heldBits_getD j hc]
    split <;> simp [h80]; omega
  · rw [List.getD_append_right _ _ _ _ (by simp [hc])]
    have := (s.accTailZero_iff.1 h) j (by omega) hj
    cases b
    · simpa [hc] using this
    · rw [if_pos rfl, BitVec.getLsbD_or, h80]
      simp [hc]
  · rw [List.getD_eq_default _ _ (by simp; omega)]
    have := (s.accTailZero_iff.1 h) j (by omega) hj
    split <;> simp [h80, this]; omega

/-- Everything PutBit can do (41_packing.md R131): the eighth bit emits the byte and clears both registers, any other
bit is held. -/
theorem State.putBit_spec (s : State) (b : Bool) (h : s.AccTailZero) :
    s.putBit b =
      if s.bitpos.toNat = 7 then (s.emit (byteAt (s.heldBits ++ [b]) 0) false).setAcc 0 0
      else s.setAcc (byteAt (s.heldBits ++ [b]) 0) (BitVec.ofNat 3 (s.bitpos.toNat + 1)) := by
  unfold State.putBit
  simp only [s.acc_putBit b h]
  by_cases hc : s.bitpos.toNat = 7
  · rw [if_pos (by omega), if_pos hc]
  · rw [if_neg (by omega), if_neg hc]

/-- One more bit completes a byte exactly when it is the eighth. -/
theorem dataBytes_snoc (bits : List Bool) (b : Bool) :
    dataBytes (bits ++ [b]) =
      if bits.length % 8 = 7 then
        dataBytes bits ++ [{ data := byteAt (bits.drop (8 * (bits.length / 8)) ++ [b]) 0, last := false }]
      else dataBytes bits := by
  have hmod := Nat.div_add_mod bits.length 8
  have hlen : (bits ++ [b]).length = bits.length + 1 := by simp
  have hsame : ∀ t, t < bits.length / 8 → byteAt (bits ++ [b]) t = byteAt bits t := by
    intro t ht
    apply byteAt_congr
    intro j hj
    rw [List.getD_append _ _ _ _ (by omega)]
  unfold dataBytes
  rw [hlen]
  by_cases h7 : bits.length % 8 = 7
  · rw [if_pos h7, show (bits.length + 1) / 8 = bits.length / 8 + 1 by omega, List.range_succ, List.map_append]
    congr 1
    · apply List.map_congr_left
      intro t ht
      rw [hsame t (List.mem_range.1 ht)]
    · simp only [List.map_cons, List.map_nil]
      rw [byteAt_congr (bits ++ [b]) (bits.drop (8 * (bits.length / 8)) ++ [b]) (bits.length / 8) 0]
      intro j hj
      rw [← List.drop_append_of_le_length (by omega)]
      simp [List.getD, List.getElem?_drop]
  · rw [if_neg h7, show (bits.length + 1) / 8 = bits.length / 8 by omega]
    apply List.map_congr_left
    intro t ht
    rw [hsame t (List.mem_range.1 ht)]

/-- Everything a sequence of bit steps can do: the whole bytes of the bits held before and the bits placed are
emitted in order, the rest is held, R23 is kept, and nothing else changes. -/
theorem State.putBits_spec (s : State) (bits : List Bool) (h : s.AccTailZero) :
    (s.putBits bits).out = s.out ++ dataBytes (s.heldBits ++ bits) ∧
    (s.putBits bits).bitpos.toNat = (s.bitpos.toNat + bits.length) % 8 ∧
    (s.putBits bits).heldBits =
      (s.heldBits ++ bits).drop (8 * ((s.bitpos.toNat + bits.length) / 8)) ∧
    (s.putBits bits).AccTailZero ∧
    s.putBits bits = { s with
      acc := (s.putBits bits).acc, bitpos := (s.putBits bits).bitpos, out := (s.putBits bits).out } := by
  have hp := s.bitpos.isLt
  induction bits using List.reverseRecOn with
  | nil =>
    refine ⟨?_, ?_, ?_, h, rfl⟩
    · simp [State.putBits, dataBytes, Nat.div_eq_of_lt hp]
    · simp [State.putBits, Nat.mod_eq_of_lt hp]
    · simp [State.putBits, Nat.div_eq_of_lt hp]
  | append_singleton bits b ih =>
    obtain ⟨h1, h2, h3, h4, h5⟩ := ih
    have hs : s.putBits (bits ++ [b]) = (s.putBits bits).putBit b := by simp [State.putBits]
    set t := s.putBits bits with ht
    have hb := t.putBit_spec b h4
    have hlen : (s.heldBits ++ bits).length = s.bitpos.toNat + bits.length := by simp
    rw [hs, ← List.append_assoc, dataBytes_snoc, hlen]
    have hdiv := Nat.div_add_mod (s.bitpos.toNat + bits.length) 8
    by_cases h7 : t.bitpos.toNat = 7
    · rw [if_pos h7] at hb
      have hb0 : (t.putBit b).bitpos.toNat = 0 := by rw [hb]; rfl
      have hacc : (t.putBit b).acc = byteAt [] 0 := by rw [hb]; rfl
      obtain ⟨hheld, htail⟩ := (t.putBit b).heldBits_of_acc [] (by simp [hb0]) hacc
      have hnew : s.bitpos.toNat + (bits ++ [b]).length = s.bitpos.toNat + bits.length + 1 := by simp; omega
      refine ⟨?_, ?_, ?_, htail, ?_⟩
      · rw [if_pos (by omega), hb, State.setAcc_out, State.emit_out, h1, h3, List.append_assoc]
      · rw [hnew, hb0]; omega
      · rw [hnew, hheld, eq_comm, List.drop_eq_nil_iff]; simp; omega
      · rw [hb, h5]; rfl
    · rw [if_neg h7] at hb
      have hlt := t.bitpos.isLt
      have hpos : (t.putBit b).bitpos.toNat = t.bitpos.toNat + 1 := by
        rw [hb, State.setAcc_bitpos, BitVec.toNat_ofNat]; omega
      have hacc : (t.putBit b).acc = byteAt (t.heldBits ++ [b]) 0 := by rw [hb]; rfl
      obtain ⟨hheld, htail⟩ := (t.putBit b).heldBits_of_acc _ (by simp [hpos]) hacc
      have hnew : s.bitpos.toNat + (bits ++ [b]).length = s.bitpos.toNat + bits.length + 1 := by simp; omega
      refine ⟨?_, ?_, ?_, htail, ?_⟩
      · rw [if_neg (by omega), hb, State.setAcc_out, h1]
      · rw [hnew, hpos]; omega
      · rw [hnew, hheld, h3, ← List.drop_append_of_le_length (by rw [hlen]; omega)]
        congr 1
        omega
      · rw [hb, h5]; rfl

end Sys2Proof.Machine
end

