-- ==== Sys2Proof/Laws/Commands.lean ====
section
/-! SUPPORT. One law per meaning and per shared operation: what each command answers, what a step can do. -/

namespace Sys2Proof.Machine

/-! ### What each command answers while `ERR = 0` -/

theorem exec_error (i : Instr) (s : State) (h : s.err = true) : exec i s = .next s := by
  cases i <;> simp [exec, execTblClr, execTblBegin, execTblData, execSym, execEnd, h]

theorem exec_tblClr (s : State) (h : s.err = false) : exec .tblClr s = .next s.clearTable.endLoad := by
  simp [exec, execTblClr, h]

theorem exec_tblBegin (s : State) (idx len : Nat) (h : s.err = false) :
    exec (.tblBegin idx len) s = .next
      (if idx < s.params.capacity then
        if len ≤ s.params.maxLen then s.beginLoad idx len else s.raise .lengthRange
      else s.raise .indexRange) := by
  simp only [exec, execTblBegin, s.unlessError_running _ h, State.indexInRange, State.lengthInRange, decide_eq_true_eq]
  split <;> [split; skip] <;> rfl

theorem exec_tblData (s : State) (data : Half) (h : s.err = false) :
    exec (.tblData data) s = .next (if s.ldActive then s.loadData data else s.raise .noLoad) := by
  simp only [exec, execTblData, s.unlessError_running _ h]
  split <;> rfl

theorem exec_sym (s : State) (idx : Nat) (h : s.err = false) :
    exec (.sym idx) s = .next
      (if idx < s.params.capacity then
        if (s.entry idx).valid then s.putBits (s.entry idx).code else s.raise .undefinedCode
      else s.raise .indexRange) := by
  simp only [exec, execSym, s.unlessError_running _ h, State.indexInRange, decide_eq_true_eq]
  split <;> [split; skip] <;> rfl

theorem exec_endStream (s : State) (h : s.err = false) :
    exec .endStream s = .next ((s.flush.emit s.controlByte true).setAcc 0x00 0) := by
  simp [exec, execEnd, h]

/-! ### The writes of TBL_BEGIN -/

theorem State.beginLoad_zero (s : State) (idx : Nat) :
    s.beginLoad idx 0 = (s.setEntry idx { s.entry idx with valid := true, len := 0 }).endLoad := rfl

theorem State.beginLoad_pos (s : State) (idx len : Nat) (h : len ≠ 0) :
    s.beginLoad idx len = (s.setEntry idx { s.entry idx with valid := false, len := BitVec.ofNat 10 len }).setLoad
      (BitVec.ofNat 10 idx) 0 := by
  simp [State.beginLoad, h]

/-- TBL_BEGIN writes the table and the load registers only. -/
theorem State.beginLoad_frame (s : State) (idx len : Nat) :
    State.SameStream s (s.beginLoad idx len) ∧ State.SameStatus s (s.beginLoad idx len) ∧
      State.SameOutside s (s.beginLoad idx len) := by
  unfold State.beginLoad
  dsimp only
  split <;> exact ⟨⟨rfl, rfl, rfl⟩, ⟨rfl, rfl⟩, ⟨rfl, rfl, rfl, rfl⟩⟩

/-- The table after a TBL_BEGIN. -/
theorem State.beginLoad_table (s : State) (idx len : Nat) :
    (s.beginLoad idx len).table = CodeTable.write s.table idx
      { s.entry idx with valid := decide (len = 0), len := BitVec.ofNat 10 len } := by
  by_cases h : len = 0
  · subst h; rfl
  · rw [s.beginLoad_pos idx len h]; simp [h]

/-- The entries after a TBL_BEGIN. -/
theorem State.beginLoad_entry (s : State) (idx len j : Nat) (h : Memory.wf s.table = true) :
    (s.beginLoad idx len).entry j =
      if j = idx then { s.entry idx with valid := decide (len = 0), len := BitVec.ofNat 10 len } else s.entry j := by
  rw [State.entry_eq, s.beginLoad_table, CodeTable.read_write _ _ _ _ h]
  rfl

/-- The load registers after a TBL_BEGIN. -/
theorem State.beginLoad_load (s : State) (idx len : Nat) :
    (len = 0 → (s.beginLoad idx len).ldActive = false ∧ (s.beginLoad idx len).ldIdx = s.ldIdx ∧
      (s.beginLoad idx len).ldCur = s.ldCur) ∧
    (len ≠ 0 → (s.beginLoad idx len).ldActive = true ∧ (s.beginLoad idx len).ldIdx = BitVec.ofNat 10 idx ∧
      (s.beginLoad idx len).ldCur = 0) := by
  refine ⟨fun h => ?_, fun h => ?_⟩
  · subst h; exact ⟨rfl, rfl, rfl⟩
  · rw [s.beginLoad_pos idx len h]; exact ⟨rfl, rfl, rfl⟩

/-! ### The writes of TBL_DATA -/

/-- TBL_DATA writes the table, LD_CUR and LD_ACTIVE only. -/
theorem State.loadData_frame (s : State) (data : Half) :
    State.SameStream s (s.loadData data) ∧ State.SameStatus s (s.loadData data) ∧
      State.SameOutside s (s.loadData data) ∧ (s.loadData data).ldIdx = s.ldIdx := by
  unfold State.loadData
  dsimp only
  split <;> exact ⟨⟨rfl, rfl, rfl⟩, ⟨rfl, rfl⟩, ⟨rfl, rfl, rfl, rfl⟩, rfl⟩

/-- The table after a TBL_DATA, `k` being the number of bits it stores. -/
theorem State.loadData_table (s : State) (data : Half) (k : Nat) (hk : k = loadCount (s.entry s.ldIdx.toNat) s.ldCur) :
    (s.loadData data).table = CodeTable.write s.table s.ldIdx.toNat
      { s.entry s.ldIdx.toNat with
        valid := if s.ldCur.toNat + k = (s.entry s.ldIdx.toNat).len.toNat then true
          else (s.entry s.ldIdx.toNat).valid
        bits := storeBits (s.entry s.ldIdx.toNat).bits s.ldCur.toNat data k } := by
  subst hk
  unfold State.loadData
  dsimp only
  split <;> rfl

/-- LD_CUR and LD_ACTIVE after a TBL_DATA. -/
theorem State.loadData_load (s : State) (data : Half) (k : Nat) (hk : k = loadCount (s.entry s.ldIdx.toNat) s.ldCur) :
    (s.loadData data).ldCur = BitVec.ofNat 10 (s.ldCur.toNat + k) ∧
    (s.loadData data).ldActive =
      if s.ldCur.toNat + k = (s.entry s.ldIdx.toNat).len.toNat then false else s.ldActive := by
  subst hk
  unfold State.loadData
  dsimp only
  split <;> exact ⟨rfl, rfl⟩

/-! ### The writes of END -/

/-- END's partial byte goes to the output stream only. -/
theorem State.flush_eq (s : State) :
    s.flush = { s with out := s.out ++
      if s.params.flushPartial = true ∧ s.bitpos ≠ 0 then [{ data := s.acc, last := false }] else [] } := by
  unfold State.flush
  split
  · rfl
  · simp

/-! ### Commands and what stands outside the block -/

/-- PutBit neither reads nor writes what stands outside the block. -/
theorem State.putBits_withOutside (bits : List Bool) (p : List PortEdge) (c : Option Word) : ∀ s : State,
    State.putBits { s with port := p, current := c } bits = { s.putBits bits with port := p, current := c } ∧
      (s.putBits bits).port = s.port ∧ (s.putBits bits).current = s.current := by
  induction bits with
  | nil => exact fun s => ⟨rfl, rfl, rfl⟩
  | cons b bs ih =>
    intro s
    have hb : State.putBit { s with port := p, current := c } b = { s.putBit b with port := p, current := c } ∧
        (s.putBit b).port = s.port ∧ (s.putBit b).current = s.current := by
      unfold State.putBit
      dsimp only
      split <;> exact ⟨rfl, rfl, rfl⟩
    obtain ⟨h1, h2, h3⟩ := ih (s.putBit b)
    exact ⟨(congrArg (State.putBits · bs) hb.1).trans h1, h2.trans hb.2.1, h3.trans hb.2.2⟩

/-- A command answers a next state, and neither reads nor writes the edges to come and the record of the last word. -/
theorem exec_withOutside (i : Instr) (s : State) (p : List PortEdge) (c : Option Word) :
    ∃ t, exec i s = .next t ∧ t.port = s.port ∧ t.current = s.current ∧
      exec i { s with port := p, current := c } = .next { t with port := p, current := c } := by
  rcases Bool.eq_false_or_eq_true s.err with he | he
  · exact ⟨s, exec_error i s he, rfl, rfl, exec_error i { s with port := p, current := c } he⟩
  · have he' : ({ s with port := p, current := c } : State).err = false := he
    cases i with
    | tblClr => exact ⟨_, exec_tblClr s he, rfl, rfl, exec_tblClr _ he'⟩
    | tblBegin idx len =>
      obtain ⟨-, -, -, hc, hp, -⟩ := s.beginLoad_frame idx len
      refine ⟨_, exec_tblBegin s idx len he, ?_, ?_, ?_⟩
      · split <;> [split; skip] <;> first | exact hp | rfl
      · split <;> [split; skip] <;> first | exact hc | rfl
      · rw [exec_tblBegin _ _ _ he']
        congr 1
        dsimp only
        split <;> [split; skip] <;> first | rfl | skip
        unfold State.beginLoad
        dsimp only
        split <;> rfl
    | tblData d =>
      obtain ⟨-, -, ⟨-, hc, hp, -⟩, -⟩ := s.loadData_frame d
      refine ⟨_, exec_tblData s d he, ?_, ?_, ?_⟩
      · split <;> first | exact hp | rfl
      · split <;> first | exact hc | rfl
      · rw [exec_tblData _ _ he']
        congr 1
        dsimp only
        split <;> [skip; rfl]
        by_cases h : s.ldCur.toNat + loadCount (s.entry s.ldIdx.toNat) s.ldCur = (s.entry s.ldIdx.toNat).len.toNat
        · rw [show s.loadData d = _ from if_pos h]; exact if_pos h
        · rw [show s.loadData d = _ from if_neg h]; exact if_neg h
    | sym idx =>
      obtain ⟨hb, hp, hc⟩ := State.putBits_withOutside (s.entry idx).code p c s
      refine ⟨_, exec_sym s idx he, ?_, ?_, ?_⟩
      · split <;> [split; skip] <;> first | exact hp | rfl
      · split <;> [split; skip] <;> first | exact hc | rfl
      · rw [exec_sym _ _ he']
        congr 1
        change (if idx < s.params.capacity then
          if (s.entry idx).valid then State.putBits { s with port := p, current := c } (s.entry idx).code else _
          else _) = _
        split <;> [split; skip] <;> first | rfl | exact hb
    | endStream =>
      refine ⟨_, exec_endStream s he, ?_, ?_, ?_⟩
      · simp [s.flush_eq]
      · simp [s.flush_eq]
      · rw [exec_endStream _ he', State.flush_eq, State.flush_eq]
        rfl

/-! ### The port list and the pins -/

/-- A command before any reset is pending; edges at or after a reset add nothing. -/
theorem commandPending_append (l : List PortEdge) (e : PortEdge) (r : List PortEdge) :
    ((∀ x ∈ l, x.rst = none) → e.rst = none → e.cmd.isSome = true → commandPending (l ++ e :: r) = true) ∧
    (e.rst.isSome = true → commandPending (l ++ e :: r) = commandPending l) := by
  induction l with
  | nil => exact ⟨fun _ h1 h2 => by simp [commandPending, h1, h2], fun h => by simp [commandPending, h]⟩
  | cons a l ih =>
    refine ⟨fun h h1 h2 => ?_, fun h => ?_⟩
    · simp only [List.cons_append, commandPending]
      rw [ih.1 (fun x hx => h x (by simp [hx])) h1 h2, h a (by simp)]
      simp
    · simp only [List.cons_append, commandPending]
      rw [ih.2 h]

@[simp] theorem State.pins_err (s : State) : s.pins.err = s.err := rfl
@[simp] theorem State.pins_errCause (s : State) : s.pins.errCause = s.cause := rfl

/-- `cmd_ready` at a listed edge. -/
theorem State.cmdReady_edge (s : State) (e : PortEdge) (rest : List PortEdge) (hp : s.port = e :: rest) :
    s.cmdReady = if e.rst.isSome then some false else if e.cmd.isSome then some true else none := by
  simp [State.cmdReady, hp]

/-- `cmd_ready` is 0 exactly where `rst = 1`. -/
theorem State.cmdReady_false_iff (s : State) : s.cmdReady = some false ↔ s.resetAsserted = true := by
  unfold State.cmdReady State.resetAsserted
  cases s.port with
  | nil => simp
  | cons e _ => obtain ⟨rst, cmd, _⟩ := e; cases rst <;> cases cmd <;> simp

/-- While `rst = 1` no word is accepted and nothing is offered. -/
theorem State.pins_reset (s : State) (h : s.resetAsserted = true) :
    s.pins.cmdReady = some false ∧ s.pins.out = none :=
  ⟨s.cmdReady_false_iff.2 h, by simp [State.pins, h]⟩

/-- While `rst = 0` the next undelivered item is offered. -/
theorem State.pins_running (s : State) (h : s.resetAsserted = false) : s.pins.out = s.outItem := by simp [State.pins, h]

/-! ### What a step can do -/

theorem step_waiting (s : State) (h : s.port = []) : step s = .next s := by
  simp [step, State.takeEdge, h]

theorem step_reset (s : State) (e : PortEdge) (rest : List PortEdge) (d : ResetDraw) (hp : s.port = e :: rest)
    (hr : e.rst = some d) : step s = .next (State.applyReset { s with port := rest } d) := by
  simp [step, State.takeEdge, hp, hr]

/-- An edge without reset: the output transfer, then the word transferred, if any. -/
theorem step_edge (s : State) (e : PortEdge) (rest : List PortEdge) (hp : s.port = e :: rest) (hr : e.rst = none) :
    step s = match e.cmd with
      | none => .next (s.afterDelivery e rest)
      | some w => runWord w (s.afterDelivery e rest) := by
  have hd : (if e.outReady then State.deliver { s with port := rest } else { s with port := rest }) =
      { s.afterDelivery e rest with current := s.current } := by
    unfold State.afterDelivery State.deliver
    cases e.outReady <;> simp
    split <;> rfl
  simp only [step, State.takeEdge, hp, hr, hd]
  unfold State.afterDelivery State.accept
  cases e.cmd <;> rfl

theorem runWord_error (w : Word) (s : State) (h : s.err = true) : runWord w s = .next s := by
  simp [runWord, State.discards, h]

theorem runWord_running (w : Word) (s : State) (h : s.err = false) :
    runWord w s = match decode w with
      | .command i => exec i s
      | .illegalOpcode => .next (s.raise .illegalOpcode)
      | .reservedBits => .next (s.raise .reservedBits) := by
  simp only [runWord, State.discards, h, Bool.false_eq_true, if_false]
  rfl

/-- Everything a transferred word can do. -/
theorem runWord_cases (w : Word) (s t : State) (h : runWord w s = .next t) :
    t = s ∨ (s.err = false ∧ ∃ c, t = s.raise c) ∨ (s.err = false ∧ ∃ i, decode w = .command i ∧ exec i s = .next t) := by
  cases he : s.err with
  | true =>
    rw [runWord_error w s he] at h
    exact .inl (by injection h with h; exact h.symm)
  | false =>
    rw [runWord_running w s he] at h
    cases hd : decode w with
    | command i => rw [hd] at h; exact .inr (.inr ⟨rfl, i, rfl, h⟩)
    | illegalOpcode => rw [hd] at h; injection h with h; exact .inr (.inl ⟨rfl, _, h.symm⟩)
    | reservedBits => rw [hd] at h; injection h with h; exact .inr (.inl ⟨rfl, _, h.symm⟩)

/-- Everything a step can do: wait, reset, or make its output transfer and then nothing, an error entry, or a command. -/
theorem step_cases (s t : State) (h : step s = .next t) :
    (s.port = [] ∧ t = s) ∨
    (∃ e rest d, s.port = e :: rest ∧ e.rst = some d ∧ t = State.applyReset { s with port := rest } d) ∨
    (∃ e rest, s.port = e :: rest ∧ e.rst = none ∧
      (t = s.afterDelivery e rest ∨
        (s.err = false ∧ ∃ c, t = (s.afterDelivery e rest).raise c) ∨
        (s.err = false ∧ ∃ w i, e.cmd = some w ∧ decode w = .command i ∧ exec i (s.afterDelivery e rest) = .next t))) := by
  cases hp : s.port with
  | nil =>
    rw [step_waiting s hp] at h
    injection h with h
    exact .inl ⟨rfl, h.symm⟩
  | cons e rest =>
    cases hr : e.rst with
    | some d =>
      rw [step_reset s e rest d hp hr] at h
      injection h with h
      exact .inr (.inl ⟨e, rest, d, rfl, hr, h.symm⟩)
    | none =>
      refine .inr (.inr ⟨e, rest, rfl, hr, ?_⟩)
      rw [step_edge s e rest hp hr] at h
      cases hc : e.cmd with
      | none => rw [hc] at h; injection h with h; exact .inl h.symm
      | some w =>
        rw [hc] at h
        rcases runWord_cases w _ t h with h | ⟨he, c, h⟩ | ⟨he, i, hi, h⟩
        · exact .inl h
        · exact .inr (.inl ⟨he, c, h⟩)
        · exact .inr (.inr ⟨he, w, i, rfl, hi, h⟩)

/-- A run of one more step, where the first answers a next state. -/
theorem run_succ_next (n : Nat) (s t : State) (h : step s = .next t) :
    Host.Core.run Sys2Proof.core (n + 1) s = Host.Core.run Sys2Proof.core n t := by
  have hs : Sys2Proof.core.step s = .next t := h
  simp only [Host.Core.run, hs]

/-- A list of one more command, where the first answers a next state. -/
theorem execAll_cons_next (i : Instr) (is : List Instr) (s t : State) (h : exec i s = .next t) :
    execAll (i :: is) s = execAll is t := by
  rw [execAll, h]

end Sys2Proof.Machine
end

