-- ==== Sys2Proof/Laws/PerInstr.lean ====
section
/-! SUPPORT. Per-command laws about the commands as syntax and their encodings. Family Encoding: the word of a well-formed command passes its opcode's mask test and carries its opcode (30_encoding.md R72). -/

namespace Sys2Proof.Laws.Encoding

/-- The word of a well-formed command carries the command's opcode and passes its row's mask test (R72). -/
def Statement (i : Instr) : Prop :=
  i.wellFormed = true →
    opcodeOf (opcodeField (encode i)) = some i.opcode ∧ encode i &&& i.opcode.mask = i.opcode.pattern

/-- A number below 1024 as a 32-bit word has no bit from 10 on. -/
theorem getLsbD_field (n i : Nat) (h : n ≤ 1023) (hi : 10 ≤ i) : (BitVec.ofNat 32 n).getLsbD i = false := by
  rw [BitVec.getLsbD_ofNat, Nat.testBit_lt_two_pow (lt_of_le_of_lt h (Nat.pow_le_pow_right (n := 2) (by omega) hi))]
  simp

theorem tblClr : Statement .tblClr := fun _ => by decide

theorem endStream : Statement .endStream := fun _ => by decide

theorem tblData (data : Half) : Statement (.tblData data) := by
  intro _
  constructor
  · have : opcodeField (encode (.tblData data)) = 3 := by
      simp only [opcodeField, encode]
      rw [show BitVec.extractLsb' 28 4 (0x30000000#32 ||| data.setWidth 32) = 3#4 from ?_]
      · rfl
      · apply BitVec.eq_of_getLsbD_eq
        intro i hi
        interval_cases i <;> simp
    rw [this]; rfl
  · apply BitVec.eq_of_getLsbD_eq
    intro i hi
    simp only [encode, Instr.opcode, Opcode.mask, Opcode.pattern]
    interval_cases i <;> simp

theorem sym (idx : Nat) : Statement (.sym idx) := by
  intro h
  have hf := fun i => getLsbD_field idx i (by simpa [Instr.wellFormed, indexFits] using h)
  constructor
  · have : opcodeField (encode (.sym idx)) = 8 := by
      simp only [opcodeField, encode]
      rw [show BitVec.extractLsb' 28 4 (0x80000000#32 ||| BitVec.ofNat 32 idx) = 8#4 from ?_]
      · rfl
      · apply BitVec.eq_of_getLsbD_eq
        intro i hi
        rw [BitVec.getLsbD_extractLsb', BitVec.getLsbD_or, hf _ (by omega)]
        interval_cases i <;> simp
    rw [this]; rfl
  · apply BitVec.eq_of_getLsbD_eq
    intro i hi
    simp only [encode, Instr.opcode, Opcode.mask, Opcode.pattern, BitVec.getLsbD_and, BitVec.getLsbD_or]
    by_cases h10 : 10 ≤ i
    · rw [hf i h10]
      interval_cases i <;> simp
    · interval_cases i <;> simp

theorem tblBegin (idx len : Nat) : Statement (.tblBegin idx len) := by
  intro h
  have hw : idx ≤ 1023 ∧ len ≤ 1023 := by simpa [Instr.wellFormed, indexFits, lengthFits] using h
  have hi := fun i => getLsbD_field idx i hw.1
  have hl := fun i => getLsbD_field len i hw.2
  constructor
  · have : opcodeField (encode (.tblBegin idx len)) = 2 := by
      simp only [opcodeField, encode]
      rw [show BitVec.extractLsb' 28 4
        (0x20000000#32 ||| (BitVec.ofNat 32 len <<< 16) ||| BitVec.ofNat 32 idx) = 2#4 from ?_]
      · rfl
      · apply BitVec.eq_of_getLsbD_eq
        intro i hi4
        rw [BitVec.getLsbD_extractLsb', BitVec.getLsbD_or, BitVec.getLsbD_or, BitVec.getLsbD_shiftLeft,
          hi _ (by omega), hl _ (by omega)]
        interval_cases i <;> simp
    rw [this]; rfl
  · apply BitVec.eq_of_getLsbD_eq
    intro i h32
    simp only [encode, Instr.opcode, Opcode.mask, Opcode.pattern, BitVec.getLsbD_and, BitVec.getLsbD_or,
      BitVec.getLsbD_shiftLeft]
    by_cases h26 : 26 ≤ i
    · rw [hi i (by omega), hl (i - 16) (by omega)]
      interval_cases i <;> simp
    · by_cases h10 : 10 ≤ i
      · rw [hi i h10]
        interval_cases i <;> simp
      · interval_cases i <;> simp

end Sys2Proof.Laws.Encoding
end

