-- ==== Sys2Proof/Laws/Encoding.lean ====
section
/-! SUPPORT. Laws of the decoder's fields and of the encoder, as numbers. -/

namespace Sys2Proof

/-- The opcode field as a number: bits 31:28. -/
theorem opcodeField_eq (w : Word) : opcodeField w = w.toNat / 2 ^ 28 := by
  unfold opcodeField
  rw [BitVec.extractLsb'_toNat, Nat.shiftRight_eq_div_pow]
  have := w.isLt
  omega

/-- The index field as a number: bits 9:0. -/
theorem indexField_eq (w : Word) : indexField w = w.toNat % 1024 := by
  unfold indexField
  rw [BitVec.extractLsb'_toNat]
  simp

/-- The length field as a number: bits 25:16. -/
theorem lengthField_eq (w : Word) : lengthField w = w.toNat / 65536 % 1024 := by
  unfold lengthField
  rw [BitVec.extractLsb'_toNat, Nat.shiftRight_eq_div_pow]

/-- The data field as a number: bits 15:0. -/
theorem dataField_toNat (w : Word) : (dataField w).toNat = w.toNat % 65536 := by
  unfold dataField
  rw [BitVec.extractLsb'_toNat]
  simp

/-- The word of a TBL_BEGIN as a number (30_encoding.md R79). -/
theorem encode_tblBegin_toNat (idx len : Nat) (hi : idx ≤ 1023) (hl : len ≤ 1023) :
    (encode (.tblBegin idx len)).toNat = 0x20000000 + len * 65536 + idx := by
  have h1 := Nat.two_pow_add_eq_or_of_lt (i := 29) (b := len * 65536) (by omega) 1
  have h2 := Nat.two_pow_add_eq_or_of_lt (i := 16) (b := idx) (by omega) (8192 + len)
  have hlen : (BitVec.ofNat 32 len <<< 16).toNat = len * 65536 := by
    rw [BitVec.toNat_shiftLeft, BitVec.toNat_ofNat, Nat.shiftLeft_eq]
    omega
  have hidx : (BitVec.ofNat 32 idx).toNat = idx := by
    rw [BitVec.toNat_ofNat]
    omega
  have hpat : (0x20000000#32).toNat = 2 ^ 29 * 1 := rfl
  simp only [encode, BitVec.toNat_or, hlen, hidx, hpat, ← h1]
  rw [show 2 ^ 29 * 1 + len * 65536 = 2 ^ 16 * (8192 + len) by omega, ← h2]
  omega

/-- The word of a TBL_DATA as a number. -/
theorem encode_tblData_toNat (data : Half) : (encode (.tblData data)).toNat = 0x30000000 + data.toNat := by
  have hd := data.isLt
  have h := Nat.two_pow_add_eq_or_of_lt (i := 16) (b := data.toNat) (by omega) 12288
  have hdata : (data.setWidth 32).toNat = data.toNat := by
    rw [BitVec.toNat_setWidth]
    omega
  have hpat : (0x30000000#32).toNat = 2 ^ 16 * 12288 := rfl
  simp only [encode, BitVec.toNat_or, hdata, hpat, ← h]

/-- The word of a SYM as a number. -/
theorem encode_sym_toNat (idx : Nat) (hi : idx ≤ 1023) : (encode (.sym idx)).toNat = 0x80000000 + idx := by
  have h := Nat.two_pow_add_eq_or_of_lt (i := 16) (b := idx) (by omega) 32768
  have hidx : (BitVec.ofNat 32 idx).toNat = idx := by
    rw [BitVec.toNat_ofNat]
    omega
  have hpat : (0x80000000#32).toNat = 2 ^ 16 * 32768 := rfl
  simp only [encode, BitVec.toNat_or, hidx, hpat, ← h]

/-- What a word that decodes to a command is made of. -/
theorem decode_command_cases (w : Word) (i : Instr) (h : decode w = .command i) :
    ∃ op, opcodeOf (opcodeField w) = some op ∧ w &&& op.mask = op.pattern ∧ op.withOperands w = i := by
  unfold decode at h
  cases ho : opcodeOf (opcodeField w) with
  | none => rw [ho] at h; cases h
  | some op =>
    rw [ho] at h
    dsimp only at h
    split at h
    · injection h with h
      exact ⟨op, rfl, ‹_›, h⟩
    · cases h

end Sys2Proof
end

