-- ==== Sys2Proof/Tests/Slice0.lean ====
section
/-! SUPPORT. Tests: the WellFormed smoke test, words written out from the spec's encodings, one-step vectors of 95_test_vectors.md, and for every obligation with hypotheses a concrete witness that meets them. -/

namespace Sys2Proof.Tests

open Sys2Proof Sys2Proof.Machine

/-! ### WellFormed refuses an ill-formed term for each check (30_encoding.md R79) -/

theorem test_index_too_wide_for_begin : (Instr.tblBegin 1024 2).wellFormed = false := by decide
theorem test_length_too_wide_for_begin : (Instr.tblBegin 1 1024).wellFormed = false := by decide
theorem test_index_too_wide_for_sym : (Instr.sym 1024).wellFormed = false := by decide
theorem test_index_1023_fits : indexFits 1023 = true ∧ indexFits 1024 = false := by decide
theorem test_length_1023_fits : lengthFits 1023 = true ∧ lengthFits 1024 = false := by decide
theorem test_widest_operands_fit : (Instr.tblBegin 1023 1023).wellFormed = true ∧ (Instr.sym 1023).wellFormed = true := by
  decide

/-! ### Words written bit by bit from the formats of 30_encoding.md R71 and the opcodes of R72 -/

/-- Format N: opcode 0001, 28 reserved bits. -/
theorem test_decode_tblClr : decode 0b0001_0000000000000000000000000000#32 = .command .tblClr := by decide

/-- Format B: opcode 0010, 2 reserved bits, `len` = 2, 6 reserved bits, `idx` = 1. -/
theorem test_decode_tblBegin : decode 0b0010_00_0000000010_000000_0000000001#32 = .command (.tblBegin 1 2) := by decide

/-- Format B, every operand bit set. -/
theorem test_decode_tblBegin_widest : decode 0b0010_00_1111111111_000000_1111111111#32 = .command (.tblBegin 1023 1023) := by
  decide

/-- Format D: opcode 0011, 12 reserved bits, `data`. -/
theorem test_decode_tblData : decode 0b0011_000000000000_1010101111001101#32 = .command (.tblData 0xABCD#16) := by decide

/-- Format S: opcode 1000, 18 reserved bits, `idx` = 1000 (P3's `800003E8`). -/
theorem test_decode_sym : decode 0b1000_000000000000000000_1111101000#32 = .command (.sym 1000) := by decide

/-- Format N: opcode 1001, 28 reserved bits. -/
theorem test_decode_endStream : decode 0b1001_0000000000000000000000000000#32 = .command .endStream := by decide

/-- T18, T19, T20, S13, E12: a reserved bit of each format. -/
theorem test_reserved_bits_rejected :
    decode 0x10000001#32 = .reservedBits ∧ decode 0x24010000#32 = .reservedBits ∧ decode 0x20000400#32 = .reservedBits ∧
    decode 0x30010000#32 = .reservedBits ∧ decode 0x80000400#32 = .reservedBits ∧ decode 0x90000001#32 = .reservedBits := by
  decide

/-- E11, E13, E14: illegal opcodes, whatever the other bits. -/
theorem test_illegal_opcodes_rejected :
    decode 0x00000000#32 = .illegalOpcode ∧ decode 0x40000000#32 = .illegalOpcode ∧
    decode 0xF0000000#32 = .illegalOpcode ∧ decode 0xA0000001#32 = .illegalOpcode := by decide

/-- R79's words (and R80's example `CODE 1, "10"`). -/
theorem test_encode_words :
    [Instr.tblClr, .tblBegin 1000 20, .tblData 0xCFFF#16, .sym 1000, .endStream].map encode =
      [0x10000000#32, 0x201403E8#32, 0x3000CFFF#32, 0x800003E8#32, 0x90000000#32] := by decide

/-- P1's second line, and a stream line with a comment. -/
theorem test_assemble_code_line :
    assembleLine ['C', 'O', 'D', 'E', ' ', '1', ',', ' ', '"', '1', '0', '"'] = some [0x20020001#32, 0x30008000#32] := by
  decide
theorem test_assemble_stream_line :
    assembleLine ['S', 'T', 'R', 'E', 'A', 'M', ' ', '2', ',', ' ', '0', 'x', '1', ' ', ';', ' ', 'x'] =
      some [0x80000002#32, 0x80000001#32, 0x90000000#32] := by decide
theorem test_assemble_refuses_wide_index : assembleLine ['S', 'Y', 'M', ' ', '1', '0', '2', '4'] = none := by decide

/-! ### States of the tests -/

/-- A valid entry whose code is the string `c`. -/
def entryOf (c : List Bool) : Entry where
  valid := true
  len := BitVec.ofNat 10 c.length
  bits := c.foldr (fun b n => (n <<< 1) ||| (BitVec.ofBool b).setWidth 1023) 0

/-- The reset block with these table entries. -/
def withTable (t : CodeTable) : State := { State.reset with table := t }

/-- The reset block of the small parameters of T15 to T17 and S12: `N = 16`, `L_MAX = 8`. -/
def small : State := { State.reset with params := { capacity := 16, maxLen := 8, flushPartial := false } }

/-- Mid-stream and mid-load: "110" held, one data byte and one control byte emitted, the first of them received;
entry 1 is "10", entry 2 (length 20) has its first sixteen bits. -/
def busy : State where
  acc := 0xC0
  bitpos := 3
  table := [(1, { valid := true, len := 2, bits := 1 }), (2, { valid := false, len := 20, bits := 0xFFFF }),
    (3, { valid := true, len := 0, bits := 0 })]
  ldActive := true
  ldIdx := 2
  ldCur := 16
  err := false
  cause := 0
  out := [{ data := 0xB3, last := false }, { data := 0x03, last := true }]
  sent := 1
  current := some 0x80000001#32
  port := []
  params := Params.hardware

/-- `busy` between streams: nothing held, END the last command. -/
def fresh : State := { busy with acc := 0x00, bitpos := 0, current := some 0x90000000#32 }

/-- `busy` in the error state. -/
def failed : State := busy.raise .undefinedCode

/-- The state of an outcome, the fallback where there is none. -/
def stateOf (o : Outcome) : State :=
  match o with
  | .next t => t
  | .fault _ => State.reset
  | .refused _ => State.reset

/-- The draw a reset makes of the unspecified state in these tests. -/
def draw : ResetDraw := { ldIdx := 7, ldCur := 1000, stale := [{ index := 2, len := 5, bits := 9 }] }

/-! ### One step a command, from the vectors of 95_test_vectors.md -/

/-- T12's second step: the entry is invalid. -/
theorem test_tblClr_invalidates :
    ((stateOf (exec .tblClr (withTable [(0, entryOf [true])]))).entry 0).valid = false := by decide
/-- R101: a load in progress ends. -/
theorem test_tblClr_ends_load : (stateOf (exec .tblClr busy)).ldActive = false := by decide

/-- T1. -/
theorem test_tblBegin_starts_load :
    let t := stateOf (exec (.tblBegin 1 2) State.reset)
    (t.entry 1).valid = false ∧ (t.entry 1).len = 2 ∧ t.ldActive = true ∧ t.ldIdx = 1 ∧ t.ldCur = 0 := by decide
/-- T17: the index is checked before the length. -/
theorem test_tblBegin_index_first :
    let t := stateOf (exec (.tblBegin 16 9) small)
    t.err = true ∧ t.cause = 3 := by decide

/-- T5's last step: 16 + 4 = 20 bits, the low 12 bits of `0xCFFF` ignored. -/
theorem test_tblData_completes_code :
    let t := stateOf (exec (.tblData 0xCFFF#16) busy)
    (t.entry 2).valid = true ∧ t.ldActive = false ∧ t.ldCur = 20 ∧
      (t.entry 2).code = List.replicate 18 true ++ [false, false] := by decide +kernel
/-- T9. -/
theorem test_tblData_without_load :
    let t := stateOf (exec (.tblData 0x1234#16) State.reset)
    t.err = true ∧ t.cause = 5 ∧ t.table = [] := by decide

/-- S6's second step: `FE` is emitted, "110" is held. -/
theorem test_sym_crosses_byte :
    let t := stateOf (exec (.sym 2) { withTable [(2, entryOf [false, true, true, false])] with acc := 0xFE, bitpos := 7 })
    t.out = [{ data := 0xFE, last := false }] ∧ t.acc = 0xC0 ∧ t.bitpos = 3 := by decide +kernel
/-- S3: the eighth bit emits the byte. -/
theorem test_sym_emits_at_eighth_bit :
    let t := stateOf (exec (.sym 4) (withTable [(4, entryOf [true, false, true, true, false, false, true, true])]))
    t.out = [{ data := 0xB3, last := false }] ∧ t.acc = 0x00 ∧ t.bitpos = 0 := by decide +kernel

/-- R138's example, `FLUSH_PARTIAL = 0`. -/
theorem test_end_drops_partial :
    let t := stateOf (exec .endStream { State.reset with acc := 0xD0, bitpos := 5 })
    t.out = [{ data := 0x05, last := true }] ∧ t.acc = 0x00 ∧ t.bitpos = 0 := by decide
/-- R138's example, `FLUSH_PARTIAL = 1`. -/
theorem test_end_flushes_partial :
    (stateOf (exec .endStream { State.reset with
      acc := 0xD0, bitpos := 5, params := { Params.hardware with flushPartial := true } })).out =
      [{ data := 0xD0, last := false }, { data := 0x05, last := true }] := by decide

/-- E11's first step, and T20: a decoding error comes before NO_LOAD. -/
theorem test_step_decoding_errors :
    (stateOf (step (State.reset.withFetchWord 32 0x00000000))).cause = 1 ∧
    (stateOf (step (State.reset.withFetchWord 32 0x30010000))).cause = 2 := by decide

/-- E11's second step: END in the error state emits nothing. -/
theorem test_step_discards_in_error_state :
    (stateOf (step (failed.withFetchWord 32 0x90000000))).out = failed.out := by decide

/-- R190 from the error state, with the draw's unspecified values. -/
theorem test_step_reset_edge :
    let t := stateOf (step { failed with port := [PortEdge.reset draw] })
    t.err = false ∧ t.cause = 0 ∧ t.out = [] ∧ t.acc = 0x00 ∧ t.ldActive = false ∧ t.ldCur = 1000 ∧
      t.entry 2 = { valid := false, len := 5, bits := 9 } := by decide +kernel

/-- R190, R32: `cmd_ready` is 0 under reset, even where a word is listed, and 1 where a word is transferred. -/
theorem test_cmd_ready_low_under_reset :
    (State.pins { busy with port := [{ PortEdge.reset draw with cmd := some 0x90000000#32 }] }).cmdReady = some false ∧
    (State.pins { busy with port := [PortEdge.ofWord 0x90000000#32] }).cmdReady = some true := by decide

/-- R190: `out_valid = 0` while `rst = 1`, though an item is undelivered; without reset the item is offered. -/
theorem test_out_valid_low_under_reset :
    (State.pins { busy with port := [PortEdge.reset draw] }).outValid = false ∧
    busy.pins.out = some { data := 0x03, last := true } := by decide

/-- `fresh` once its last item is received: END is the last command, its control byte received, nothing to come. -/
def finished : State := { fresh with sent := 2 }

/-- R201 (a): ended; not so with the item undelivered, nor when a SYM that emitted nothing followed END. -/
theorem test_run_ends_at_last_end :
    finished.ended = true ∧ fresh.ended = false ∧
    (State.ended { finished with bitpos := 1, current := some 0x80000001#32 }) = false := by decide

/-- R201: a command to come before a reset is pending, one at or after a listed reset edge belongs to another run. -/
theorem test_pending_command_up_to_reset :
    (State.ended { finished with port := [PortEdge.ofWord 0x90000000#32] }) = false ∧
    (State.ended { finished with port :=
      [{ PortEdge.reset draw with cmd := some 0x80000001#32 }, PortEdge.ofWord 0x90000000#32] }) = true := by decide

/-- The host's two questions, on END's row (E1's item). -/
theorem test_table_word_runs_first :
    decodeTableWord 32 0x90000000 = some .endStream ∧
    (stateOf (step (State.reset.withFetchWord 32 0x90000000))).out = [{ data := 0x00, last := true }] := by decide

/-! ### The invariant holds of the states above -/

theorem busy_inv : busy.Inv :=
  ⟨by decide, by decide, by decide, by decide, by decide, by decide, by decide, by decide⟩
theorem fresh_inv : fresh.Inv :=
  ⟨by decide, by decide, by decide, by decide, by decide, by decide, by decide, by decide⟩
theorem failed_inv : failed.Inv :=
  ⟨by decide, by decide, by decide, by decide, by decide, by decide, by decide, by decide⟩
theorem small_inv : small.Inv :=
  ⟨by decide, by decide, by decide, by decide, by decide, by decide, by decide, by decide⟩

/-! ### Witnesses: encoding -/

theorem witness_DecodeEncodeRoundTrip :
    (Instr.tblBegin 1023 1023).wellFormed = true ∧ (Instr.tblBegin 0 0).wellFormed = true ∧
    (Instr.sym 1023).wellFormed = true ∧ (Instr.tblData 0xFFFF#16).wellFormed = true := by decide
theorem witness_CommandWordsAreEncodings : ∃ w i, decode w = .command i := ⟨0x23FF03FF#32, .tblBegin 1023 1023, by decide⟩
theorem witness_OperandsAreUnsignedFields :
    decode 0x23FF03FF#32 = .command (.tblBegin 1023 1023) ∧ decode 0x3000FFFF#32 = .command (.tblData 0xFFFF#16) ∧
    decode 0x800003FF#32 = .command (.sym 1023) ∧ (0x23FF03FF#32).toNat = 0x20000000 + 1023 * 65536 + 1023 ∧
    (0x3000FFFF#32).toNat = 0x30000000 + (0xFFFF#16).toNat ∧ (0x800003FF#32).toNat = 0x80000000 + 1023 := by decide

/-! ### Witnesses: steps, errors, reset -/

/-- `busy` with the host transferring `w` and accepting an item at the next edge. -/
def offered (s : State) (w : Word) : State := { s with port := [{ rst := none, cmd := some w, outReady := true }] }

theorem witness_StepRunsDecodedCommand :
    ∃ s e rest w i, State.port s = e :: rest ∧ e.rst = none ∧ e.cmd = some w ∧ s.err = false ∧ decode w = .command i :=
  ⟨offered busy 0x80000001#32, _, _, _, .sym 1, rfl, rfl, rfl, rfl, by decide⟩
theorem witness_TransferredCommandsRunInOrder :
    ∀ i ∈ [Instr.tblBegin 1 2, .tblData 0x8000#16, .sym 1, .endStream], i.wellFormed = true := by decide
theorem witness_UndecodableWordsRaise_illegal :
    ∃ s e rest w, State.port s = e :: rest ∧ e.rst = none ∧ e.cmd = some w ∧ s.err = false ∧
      w.toNat / 2 ^ 28 ∈ illegalOpcodes :=
  ⟨offered busy 0xF0000000#32, _, _, _, rfl, rfl, rfl, rfl, by decide⟩
theorem witness_UndecodableWordsRaise_reserved :
    ∃ s e rest w, State.port s = e :: rest ∧ e.rst = none ∧ e.cmd = some w ∧ s.err = false ∧
      w.toNat / 2 ^ 28 ∉ illegalOpcodes ∧ w &&& reservedBitsOf (w.toNat / 2 ^ 28) ≠ 0 :=
  ⟨offered busy 0x24010000#32, _, _, _, rfl, rfl, rfl, rfl, by decide⟩
/-- Each cause, and none. -/
theorem witness_FirstApplicableCauseReported :
    (∃ s w rest, State.err s = false ∧ s.port = PortEdge.ofWord w :: rest) ∧
    errorOf 0x00000000#32 busy = some .illegalOpcode ∧ errorOf 0x30010000#32 State.reset = some .reservedBits ∧
    errorOf 0x20090010#32 small = some .indexRange ∧ errorOf 0x20090000#32 small = some .lengthRange ∧
    errorOf 0x30001234#32 State.reset = some .noLoad ∧ errorOf 0x80000010#32 small = some .indexRange ∧
    errorOf 0x80000002#32 busy = some .undefinedCode ∧ errorOf 0x80000001#32 busy = none ∧
    errorOf 0x2008000F#32 small = none ∧ errorOf 0x30001234#32 busy = none :=
  ⟨⟨{ busy with port := [PortEdge.ofWord 0] }, 0, [], rfl, rfl⟩, by decide, by decide, by decide, by decide, by decide,
    by decide, by decide, by decide, by decide, by decide⟩
theorem witness_ErrorsArePrecise : ∃ i s t, State.err s = false ∧ exec i s = .next t ∧ t.err = true :=
  ⟨.sym 2, busy, _, rfl, exec_sym busy 2 rfl, by decide⟩
theorem witness_HardwareRaisesNoRangeError_noLoad :
    ∃ i s t, State.params s = Params.hardware ∧ Instr.wellFormed i = true ∧ s.err = false ∧ exec i s = .next t ∧
      t.err = true :=
  ⟨.tblData 0, State.reset, _, rfl, rfl, rfl, exec_tblData State.reset 0 rfl, by decide⟩
theorem witness_HardwareRaisesNoRangeError_undefined :
    ∃ i s t, State.params s = Params.hardware ∧ Instr.wellFormed i = true ∧ s.err = false ∧ exec i s = .next t ∧
      t.err = true :=
  ⟨.sym 1023, busy, _, rfl, by decide, rfl, exec_sym busy 1023 rfl, by decide⟩
theorem witness_ErrorStateDiscardsWords :
    ∃ s e rest w, State.port s = e :: rest ∧ e.rst = none ∧ e.cmd = some w ∧ s.err = true :=
  ⟨offered failed 0x90000000#32, _, _, _, rfl, rfl, rfl, rfl⟩
theorem witness_OnlyResetLeavesErrorState :
    failed.err = true ∧ (stateOf (step { failed with port := [PortEdge.reset draw] })).err = false ∧
    (stateOf (step (offered failed 0x10000000#32))).err = true := by decide
theorem witness_StatusWrittenOnlyByErrorOrReset : ∃ s t, step s = .next t ∧ s.err = false ∧ t.err = true :=
  ⟨{ busy with port := [PortEdge.ofWord 0] }, _, rfl, by decide, by decide⟩
theorem witness_ResetEdgeResetsEverything : ∃ s e rest d, State.port s = e :: rest ∧ e.rst = some d :=
  ⟨{ failed with port := [PortEdge.reset draw] }, _, _, _, rfl, rfl⟩
theorem witness_ResetWinsOverTransfers : ∃ s t, step s = .next t ∧ s.err = false ∧ t.err = true :=
  witness_StatusWrittenOnlyByErrorOrReset
theorem witness_WaitingHoldsAllState : busy.port = [] := by decide

/-! ### Witnesses: invariants -/

theorem witness_StepKeepsInv : ∃ s t, State.Inv s ∧ step s = .next t ∧ t ≠ s :=
  ⟨{ busy with port := [PortEdge.ofWord 0x90000000#32] },
    stateOf (exec .endStream { busy with current := some 0x90000000#32 }),
    ⟨by decide, by decide, by decide, by decide, by decide, by decide, by decide, by decide⟩, rfl, by decide⟩
theorem witness_AccumulatorTailStaysZero :
    busy.AccTailZero ∧ fresh.AccTailZero ∧ fresh.bitpos = 0 ∧
    ∃ t, step { busy with port := [PortEdge.ofWord 0x80000001#32] } = .next t :=
  ⟨by decide, by decide, by decide, _, rfl⟩
theorem witness_ParametersNeverChange : ∃ s t, step s = .next t ∧ s.err = false ∧ t.err = true :=
  witness_StatusWrittenOnlyByErrorOrReset
/-- A command that writes the stream, one that writes the table, one that writes the load registers. -/
theorem witness_OnlyNamedCommandsWrite :
    (∃ i s t, exec i s = .next t ∧ ¬ State.SameStream s t) ∧ (∃ i s t, exec i s = .next t ∧ t.table ≠ s.table) ∧
    (∃ i s t, exec i s = .next t ∧ ¬ State.SameLoadRegs s t) :=
  ⟨⟨.endStream, busy, _, exec_endStream busy rfl, by decide⟩, ⟨.tblClr, busy, _, exec_tblClr busy rfl, by decide⟩,
    ⟨.tblClr, busy, _, exec_tblClr busy rfl, by decide⟩⟩

/-! ### Witnesses: code-table commands -/

theorem witness_TableCommandsLeaveStream : failed.err = true ∧ busy.err = false := by decide
theorem witness_TblClrInvalidatesEveryEntry :
    busy.Inv ∧ busy.err = false ∧ 1023 < busy.params.capacity ∧ (0x10000000#32).toNat / 2 ^ 28 = 0x1 ∧
    (0x1FFFFFFF#32).toNat / 2 ^ 28 = 0x1 := ⟨busy_inv, by decide, by decide, by decide, by decide⟩
/-- The three clauses, at the parameters' boundaries, on the hardware and on the small block. -/
theorem witness_TblBeginStartsLoad :
    busy.Inv ∧ small.Inv ∧ busy.err = false ∧ small.err = false ∧ small.params.capacity ≤ 16 ∧
    (15 < small.params.capacity ∧ small.params.maxLen < 9) ∧ (15 < small.params.capacity ∧ 8 ≤ small.params.maxLen) ∧
    (1023 < busy.params.capacity ∧ 1023 ≤ busy.params.maxLen) :=
  ⟨busy_inv, small_inv, by decide, by decide, by decide, by decide, by decide, by decide⟩
theorem witness_EmptyCodeIsDefinedAtOnce :
    busy.Inv ∧ busy.err = false ∧ 1023 < busy.params.capacity ∧ 2 < busy.params.capacity :=
  ⟨busy_inv, by decide, by decide, by decide⟩
theorem witness_AbandonedLoadStaysInvalid_other :
    busy.Inv ∧ busy.err = false ∧ busy.ldActive = true ∧ 1 < busy.params.capacity ∧ 2 ≤ busy.params.maxLen ∧
    1 ≠ busy.ldIdx.toNat ∧ (∀ len', Instr.tblBegin busy.ldIdx.toNat len' ∉ [Instr.tblData 0, .sym 3, .tblClr]) ∧
    ∃ t u, exec (.tblBegin 1 2) busy = .next t ∧ execAll [Instr.tblData 0, .sym 3, .tblClr] t = .next u :=
  ⟨busy_inv, by decide, by decide, by decide, by decide, by decide, by simp, _, _, rfl, rfl⟩
theorem witness_AbandonedLoadStaysInvalid_same :
    busy.Inv ∧ busy.err = false ∧ busy.ldActive = true ∧ 2 < busy.params.capacity ∧ 1 ≤ busy.params.maxLen ∧
    2 = busy.ldIdx.toNat := ⟨busy_inv, by decide, by decide, by decide, by decide, by decide⟩
theorem witness_ValidEntriesAreNeverPatched :
    busy.Inv ∧ busy.err = false ∧ busy.ldActive = true ∧ 1 < busy.params.capacity ∧ 1 ≤ busy.params.maxLen ∧
    ∃ t, exec (.tblData 0xCFFF#16) busy = .next t ∧ (busy.entry 1).valid = true ∧ (t.entry 1).valid = true :=
  ⟨busy_inv, by decide, by decide, by decide, by decide, _, exec_tblData busy _ rfl, by decide, by decide⟩
theorem witness_TblDataWithoutLoadRaises :
    State.reset.err = false ∧ State.reset.ldActive = false ∧ (∃ t, exec .tblClr busy = .next t) ∧
    1023 < busy.params.capacity ∧ (∃ t, exec (.tblBegin 1023 0) busy = .next t) ∧ busy.err = false ∧
    busy.ldActive = true ∧
    (busy.entry busy.ldIdx.toNat).len.toNat =
      busy.ldCur.toNat + min 16 ((busy.entry busy.ldIdx.toNat).len.toNat - busy.ldCur.toNat) ∧
    ∃ t, exec (.tblData 0xCFFF#16) busy = .next t :=
  ⟨by decide, by decide, ⟨_, exec_tblClr busy rfl⟩, by decide, ⟨_, exec_tblBegin busy 1023 0 rfl⟩, by decide, by decide,
    by decide, _, exec_tblData busy _ rfl⟩
/-- A TBL_DATA that completes its entry (`k` = 4) and one that does not (cursor 0, `k` = 16). -/
theorem witness_TblDataStoresCodeBits :
    busy.Inv ∧ busy.err = false ∧ busy.ldActive = true ∧
    min 16 ((busy.entry busy.ldIdx.toNat).len.toNat - busy.ldCur.toNat) = 4 ∧
    ∃ s, State.Inv s ∧ s.err = false ∧ s.ldActive = true ∧
      min 16 ((s.entry s.ldIdx.toNat).len.toNat - s.ldCur.toNat) = 16 ∧
      s.ldCur.toNat + 16 ≠ (s.entry s.ldIdx.toNat).len.toNat :=
  ⟨busy_inv, by decide, by decide, by decide, { busy with ldCur := 0 },
    ⟨by decide, by decide, by decide, by decide, by decide, by decide, by decide, by decide⟩, by decide, by decide,
    by decide, by decide⟩
theorem witness_UnusedDataBitsAreIgnored :
    busy.Inv ∧ busy.err = false ∧ busy.ldActive = true ∧
    ∀ j, j < min 16 ((busy.entry busy.ldIdx.toNat).len.toNat - busy.ldCur.toNat) →
      (0xCFFF#16).getLsbD (15 - j) = (0xC000#16).getLsbD (15 - j) :=
  ⟨busy_inv, by decide, by decide, by decide⟩
/-- With fewer than its words, and with all of them (two for 17 bits). -/
theorem witness_LoadTakesExactlyItsDataWords :
    busy.Inv ∧ busy.err = false ∧ 9 < busy.params.capacity ∧ 1 ≤ 17 ∧ 17 ≤ busy.params.maxLen ∧
    (∀ i ∈ [Instr.tblData 0xABCD#16, .sym 1, .tblData 0x8000#16, .endStream], keepsLoad i = true) ∧
    (∃ t, execAll (.tblBegin 9 17 :: [.tblData 0xABCD#16, .sym 1, .tblData 0x8000#16, .endStream]) busy = .next t ∧
      t.err = false) ∧
    (dataWords [Instr.tblData 0xABCD#16, .sym 1, .tblData 0x8000#16, .endStream]).length = (17 + 15) / 16 ∧
    (∃ t, execAll (.tblBegin 9 17 :: [.tblData 0xABCD#16]) busy = .next t ∧ t.err = false) ∧
    (dataWords [Instr.tblData 0xABCD#16]).length < (17 + 15) / 16 :=
  ⟨busy_inv, by decide, by decide, by decide, by decide, by decide, ⟨_, rfl, by decide⟩, by decide, ⟨_, rfl, by decide⟩,
    by decide⟩
theorem witness_CodeLineLoadsItsCode :
    busy.Inv ∧ busy.err = false ∧ 1023 < busy.params.capacity ∧ ([] : List Bool).length ≤ busy.params.maxLen ∧
    (List.replicate 17 true).length ≤ busy.params.maxLen := ⟨busy_inv, by decide, by decide, by decide, by decide⟩
theorem witness_CompletedLoadIsSeenAtOnce :
    busy.Inv ∧ busy.err = false ∧ busy.ldActive = true ∧
    (busy.entry busy.ldIdx.toNat).len.toNat ≤ busy.ldCur.toNat + 16 := ⟨busy_inv, by decide, by decide, by decide⟩

/-! ### Witnesses: packing commands -/

theorem witness_PackingCommandsLeaveLoadAndTable : failed.err = true ∧ busy.err = false := by decide
theorem witness_PutBitPlacesOneBit :
    ∃ s t, State.AccTailZero s ∧ s.bitpos.toNat = 6 ∧ State.AccTailZero t ∧ t.bitpos.toNat = 7 :=
  ⟨{ busy with acc := 0xFC, bitpos := 6 }, { busy with acc := 0xFE, bitpos := 7 }, by decide, by decide, by decide, by decide⟩
theorem witness_SymPacksItsCode :
    small.Inv ∧ small.err = false ∧ small.params.capacity ≤ 16 ∧
    busy.Inv ∧ busy.err = false ∧ (1023 < busy.params.capacity ∧ (busy.entry 1023).valid = false) ∧
    (1 < busy.params.capacity ∧ (busy.entry 1).valid = true) :=
  ⟨small_inv, by decide, by decide, busy_inv, by decide, by decide, by decide⟩
theorem witness_SymOfEmptyCodeChangesNothing :
    busy.err = false ∧ 3 < busy.params.capacity ∧ (busy.entry 3).valid = true ∧ (busy.entry 3).len = 0 := by decide
theorem witness_FailingSymHasNoOtherEffect :
    (∃ t, exec (.sym 2) busy = .next t ∧ t.err = true) ∧ ∃ t, exec (.sym 16) small = .next t ∧ t.err = true :=
  ⟨⟨_, exec_sym busy 2 rfl, by decide⟩, ⟨_, exec_sym small 16 rfl, by decide⟩⟩
theorem witness_EndClosesStream :
    busy.err = false ∧ (0x90000000#32).toNat / 2 ^ 28 = 0x9 ∧ (0x9FFFFFFF#32).toNat / 2 ^ 28 = 0x9 := by decide
theorem witness_PartialByteIsZeroPadded :
    ∃ s t, State.AccTailZero s ∧ s.err = false ∧ exec .endStream s = .next t ∧ s.params.flushPartial = true ∧ s.bitpos ≠ 0 :=
  ⟨{ busy with params := { Params.hardware with flushPartial := true } }, _, by decide, rfl, exec_endStream _ rfl, rfl,
    by decide⟩
theorem witness_PartialByteIsZeroPadded_none :
    ∃ s t, State.AccTailZero s ∧ s.err = false ∧ exec .endStream s = .next t ∧ s.bitpos = 0 :=
  ⟨fresh, _, by decide, rfl, exec_endStream _ rfl, rfl⟩
theorem witness_StreamLaw :
    fresh.Inv ∧ fresh.err = false ∧ fresh.bitpos = 0 ∧
    (∀ i ∈ [Instr.sym 1, .tblData 0xCFFF#16, .sym 2], i ≠ .endStream) ∧
    ∃ t, execAll ([Instr.sym 1, .tblData 0xCFFF#16, .sym 2] ++ [.endStream]) fresh = .next t ∧ t.err = false :=
  ⟨fresh_inv, by decide, by decide, by decide, _, rfl, by decide⟩
theorem witness_ControlBytesCountStreams :
    fresh.err = false ∧ fresh.bitpos = 0 ∧ busy.AccTailZero ∧ busy.err = false ∧ ∃ t, exec .endStream busy = .next t :=
  ⟨by decide, by decide, by decide, by decide, _, exec_endStream busy rfl⟩
theorem witness_StreamMatchesDocumentPacker :
    fresh.Inv ∧ fresh.err = false ∧ fresh.bitpos = 0 ∧ fresh.params.flushPartial = false ∧
    ∀ i ∈ [1, 3, 1], i < fresh.params.capacity ∧ (fresh.entry i).valid = true :=
  ⟨fresh_inv, by decide, by decide, by decide, by decide⟩

/-! ### Witnesses: delivery, unspecified state -/

theorem witness_DeliveryIsInOrder :
    ∃ s t e rest, State.DeliveryLegal s ∧ s.port = e :: rest ∧ e.rst = none ∧ step s = .next t ∧ e.outReady = true :=
  ⟨offered busy 0x80000001#32, _, _, _, by decide, rfl, rfl, rfl, rfl⟩
theorem witness_AcceptingHostReceivesEverything :
    ∃ s, State.DeliveryLegal s ∧ s.port = List.replicate (s.out.length - s.sent) PortEdge.accept ∧ s.port ≠ [] :=
  ⟨{ busy with port := [PortEdge.accept] }, by decide, by decide, by decide⟩
theorem witness_ResetDiscardsUndelivered :
    ∃ s n draw rest, State.DeliveryLegal s ∧ s.sent + n ≤ s.out.length ∧
      s.port = List.replicate n PortEdge.accept ++ PortEdge.reset draw :: rest :=
  ⟨{ busy with port := [PortEdge.accept, PortEdge.reset draw] }, 1, draw, [], by decide, by decide, rfl⟩

/-- Two commands and END, with every item accepted after them (two: one left over, and END's). -/
theorem witness_RunEndsAfterLastEnd_accepted :
    ∃ s u is k n, State.Inv s ∧ s.err = false ∧ (∀ i ∈ is, Instr.wellFormed i = true) ∧
      execAll (is ++ [.endStream]) s = .next u ∧ u.err = false ∧ s.sent + n = u.out.length ∧ k ≤ n ∧
      s.port = commandEdges (is ++ [.endStream]) ++ List.replicate n PortEdge.accept :=
  ⟨{ busy with port := commandEdges [.sym 1, .sym 3, .endStream] ++ List.replicate 2 PortEdge.accept }, _, [.sym 1, .sym 3],
    2, 2, ⟨by decide, by decide, by decide, by decide, by decide, by decide, by decide, by decide⟩, rfl, by decide, rfl,
    by decide, by decide, by decide, rfl⟩
theorem witness_RunEndsAfterLastEnd_error : failed.err = true := by decide
theorem witness_RunEndsAfterLastEnd_other_command :
    ∃ s t e rest w, State.port s = e :: rest ∧ e.rst = none ∧ e.cmd = some w ∧ step s = .next t ∧ t.err = false ∧
      w ≠ 0x90000000#32 :=
  ⟨offered busy 0x80000001#32, _, _, _, _, rfl, rfl, rfl, rfl, by decide, by decide⟩
theorem witness_RunEndsAfterLastEnd_pending :
    ∃ s quiet e rest, State.port s = quiet ++ e :: rest ∧ (∀ x ∈ quiet, x.rst = none) ∧ e.rst = none ∧
      e.cmd.isSome = true ∧ s.err = false :=
  ⟨{ finished with port := [PortEdge.accept, PortEdge.ofWord 0x80000001#32] }, [PortEdge.accept], _, [], rfl, by decide, rfl,
    rfl, rfl⟩
theorem witness_RunEndsAfterLastEnd_next_run : (PortEdge.reset draw).rst.isSome = true := by decide

/-- `busy` with other unspecified values: the bits of entry 2 not loaded yet, a stale entry 9. -/
def busyOther : State :=
  { busy with table := [(1, { valid := true, len := 2, bits := 1 }), (2, { valid := false, len := 20, bits := 0xFFFFFF }),
      (3, { valid := true, len := 0, bits := 5 }), (9, { valid := false, len := 77, bits := 1 })] }

theorem witness_UnspecifiedStateIsUnobservable : busy.Inv ∧ busyOther.Inv ∧ busy.SameMeaning busyOther ∧ busy ≠ busyOther := by
  refine ⟨busy_inv, ⟨by decide, by decide, by decide, by decide, by decide, by decide, by decide, by decide⟩,
    ⟨rfl, rfl, ?_, rfl, fun _ => rfl, fun _ => rfl, fun _ => by decide +kernel, rfl, rfl, rfl, rfl, rfl, .nil, rfl⟩, by decide +kernel⟩
  intro i _
  rcases Nat.lt_or_ge i 10 with h | h
  · revert h; revert i; decide +kernel
  · have h1 : busy.entry i = Entry.blank := by
      simp [State.entry, busy, CodeTable.read, show ¬ 1 = i by omega, show ¬ 2 = i by omega, show ¬ 3 = i by omega]
    have h2 : busyOther.entry i = { Entry.blank with valid := false } := by
      simp [State.entry, busyOther, CodeTable.read, show ¬ 1 = i by omega, show ¬ 2 = i by omega,
        show ¬ 3 = i by omega, show ¬ 9 = i by omega, Entry.blank]
    rw [h1, h2]
    exact ⟨rfl, fun h => by cases h⟩

end Sys2Proof.Tests
end

/-! PROOF. R23: the accumulator positions not yet filled are zero (`Obligations.AccumulatorTailStaysZero`). -/

namespace Sys2Proof.Machine

/-! ### What keeps the tail of the accumulator zero -/

/-- An empty accumulator has no position set, wherever `BITPOS` stands. -/
theorem State.accTailZero_of_acc_zero (s : State) (h : s.acc = 0x00) : s.AccTailZero := by
  rw [State.AccTailZero, h]
  exact BitVec.zero_and

/-- R23 is about `ACC` and `BITPOS` only: a state with the same two registers keeps it. -/
theorem State.accTailZero_of_same_regs (s t : State) (hs : s.AccTailZero) (ha : t.acc = s.acc)
    (hb : t.bitpos = s.bitpos) : t.AccTailZero := by
  rw [State.AccTailZero, ha, hb]
  exact hs

/-- With no bit held, R23 covers all eight positions. -/
theorem State.acc_eq_zero_of_bitpos_zero (s : State) (hs : s.AccTailZero) (hb : s.bitpos = 0) : s.acc = 0x00 := by
  have hmask : 0xFF#8 >>> s.bitpos.toNat = BitVec.allOnes 8 := by rw [hb]; rfl
  rwa [State.AccTailZero, hmask, BitVec.and_allOnes] at hs

/-! ### Commands and steps -/

/-- What a command can do to `ACC` and `BITPOS`: leave both, place the bits of a code (SYM), or clear both (END). -/
theorem exec_acc_cases (i : Instr) (s t : State) (h : exec i s = .next t) :
    (t.acc = s.acc ∧ t.bitpos = s.bitpos) ∨ (∃ bits, t = s.putBits bits) ∨ (t.acc = 0x00 ∧ t.bitpos = 0) := by
  cases he : s.err with
  | true =>
    rw [exec_error i s he] at h
    obtain rfl := Host.Outcome.next.inj h
    exact .inl ⟨rfl, rfl⟩
  | false =>
    cases i with
    | tblClr =>
      rw [exec_tblClr s he] at h
      obtain rfl := Host.Outcome.next.inj h
      exact .inl ⟨rfl, rfl⟩
    | tblBegin idx len =>
      rw [exec_tblBegin s idx len he] at h
      obtain rfl := Host.Outcome.next.inj h
      obtain ⟨⟨hacc, hpos, -⟩, -, -⟩ := s.beginLoad_frame idx len
      left
      split
      · split
        · exact ⟨hacc, hpos⟩
        · exact ⟨rfl, rfl⟩
      · exact ⟨rfl, rfl⟩
    | tblData data =>
      rw [exec_tblData s data he] at h
      obtain rfl := Host.Outcome.next.inj h
      obtain ⟨⟨hacc, hpos, -⟩, -, -, -⟩ := s.loadData_frame data
      left
      split
      · exact ⟨hacc, hpos⟩
      · exact ⟨rfl, rfl⟩
    | sym idx =>
      rw [exec_sym s idx he] at h
      obtain rfl := Host.Outcome.next.inj h
      split
      · split
        · exact .inr (.inl ⟨_, rfl⟩)
        · exact .inl ⟨rfl, rfl⟩
      · exact .inl ⟨rfl, rfl⟩
    | endStream =>
      rw [exec_endStream s he] at h
      obtain rfl := Host.Outcome.next.inj h
      exact .inr (.inr ⟨rfl, rfl⟩)

/-- R23, "holding after every command". -/
theorem exec_keeps_accTailZero (i : Instr) (s t : State) (hs : s.AccTailZero) (h : exec i s = .next t) :
    t.AccTailZero := by
  rcases exec_acc_cases i s t h with ⟨ha, hb⟩ | ⟨bits, rfl⟩ | ⟨ha, -⟩
  · exact s.accTailZero_of_same_regs t hs ha hb
  · obtain ⟨-, -, -, htail, -⟩ := s.putBits_spec bits hs
    exact htail
  · exact t.accTailZero_of_acc_zero ha

/-- R23 after every edge: only a command and a reset write `ACC` and `BITPOS`. -/
theorem step_keeps_accTailZero (s t : State) (hs : s.AccTailZero) (h : step s = .next t) : t.AccTailZero := by
  rcases step_cases s t h with ⟨-, rfl⟩ | ⟨e, rest, d, -, -, rfl⟩ | ⟨e, rest, -, -, hedge⟩
  · exact hs
  · exact State.accTailZero_of_acc_zero _ (State.applyReset_acc _ d)
  · have hdelivered : (s.afterDelivery e rest).AccTailZero := s.accTailZero_of_same_regs _ hs rfl rfl
    rcases hedge with rfl | ⟨-, c, rfl⟩ | ⟨-, w, i, -, -, hexec⟩
    · exact hdelivered
    · exact State.accTailZero_of_same_regs _ _ hdelivered (State.raise_acc _ c) (State.raise_bitpos _ c)
    · exact exec_keeps_accTailZero i _ t hdelivered hexec

/-- Settles O23: R23 holds at reset, every step keeps it, and with `BITPOS = 0` it says `ACC = 0`. -/
theorem accumulatorTailStaysZero : Obligations.AccumulatorTailStaysZero :=
  ⟨State.reset.accTailZero_of_acc_zero rfl, step_keeps_accTailZero, State.acc_eq_zero_of_bitpos_zero⟩

end Sys2Proof.Machine

/-! PROOF. Encoding (30_encoding.md R71 to R77): the mask test as opcode and reserved bits, the three outcomes of the decoder (`Obligations.EveryWordIsOneOfThreeKinds`), and its operands as numbers (`Obligations.OperandsAreUnsignedFields`). -/

namespace Sys2Proof

open Sys2Proof.Machine

/-! ### The opcode map -/

/-- The map R72 read from right to left: a row's opcode value stands in the row's pattern. -/
theorem opcodeOf_eq_some_iff (n : Nat) (op : Opcode) : opcodeOf n = some op ↔ n = opcodeField op.pattern := by
  constructor
  · intro h
    unfold opcodeOf at h
    split at h <;> cases h <;> rfl
  · rintro rfl
    cases op <;> rfl

theorem opcodeField_lt (w : Word) : opcodeField w < 16 := (w.extractLsb' 28 4).isLt

/-- R75's list is what the opcode map leaves out of the sixteen values of the field. -/
theorem opcodeOf_eq_none_iff : ∀ n < 16, opcodeOf n = none ↔ n ∈ illegalOpcodes := by decide

theorem opcodeOf_opcodeField_eq_none_iff (w : Word) :
    opcodeOf (opcodeField w) = none ↔ w.toNat / 2 ^ 28 ∈ illegalOpcodes := by
  rw [opcodeOf_eq_none_iff _ (opcodeField_lt w), opcodeField_eq]

/-! ### The mask test -/

/-- A mask is the opcode field and the reserved bits of the row's format (R71, R72). -/
theorem Opcode.mask_eq (op : Opcode) :
    op.mask = 0xF0000000#32 ||| reservedBitsOf (opcodeField op.pattern) := by
  cases op <;> decide

/-- Every mask covers its format's reserved bits. -/
theorem Opcode.mask_and_reserved (op : Opcode) :
    op.mask &&& reservedBitsOf (opcodeField op.pattern) = reservedBitsOf (opcodeField op.pattern) := by
  cases op <;> decide

/-- No pattern has a reserved bit set. -/
theorem Opcode.pattern_and_reserved (op : Opcode) :
    op.pattern &&& reservedBitsOf (opcodeField op.pattern) = 0 := by
  cases op <;> decide

/-- Beside its opcode field a pattern is zero. -/
theorem Opcode.pattern_and_opcodeBits (op : Opcode) : op.pattern &&& 0xF0000000#32 = op.pattern := by
  cases op <;> decide

/-- The top four bits of a word say the same as its opcode field. -/
theorem opcodeBits_eq_iff (v w : Word) :
    v &&& 0xF0000000#32 = w &&& 0xF0000000#32 ↔ opcodeField v = opcodeField w := by
  have hfield (u : Word) : opcodeField u = opcodeField (u &&& 0xF0000000#32) := by
    rw [opcodeField, opcodeField, BitVec.extractLsb'_and]
    exact congrArg BitVec.toNat (BitVec.and_allOnes (x := u.extractLsb' 28 4)).symm
  have hbits (u : Word) : u &&& 0xF0000000#32 = (u.extractLsb' 28 4).setWidth 32 <<< 28 := by
    apply BitVec.eq_of_getLsbD_eq
    intro i hi
    interval_cases i <;> simp
  constructor
  · intro h
    rw [hfield v, h, ← hfield w]
  · intro h
    rw [hbits v, hbits w, BitVec.eq_of_toNat_eq h]

/-- R72 against R71 and R74: a word passes a row's mask test exactly when it has the row's opcode and none of the
reserved bits of the row's format. -/
theorem mask_test_iff (w : Word) (op : Opcode) :
    w &&& op.mask = op.pattern ↔
      opcodeField w = opcodeField op.pattern ∧ w &&& reservedBitsOf (opcodeField w) = 0 := by
  constructor
  · intro h
    have hop : opcodeField w = opcodeField op.pattern := by
      rw [← opcodeBits_eq_iff, ← h, BitVec.and_assoc]
      congr 1
      cases op <;> rfl
    refine ⟨hop, ?_⟩
    rw [hop, ← op.mask_and_reserved, ← BitVec.and_assoc, h, op.pattern_and_reserved]
  · rintro ⟨hop, hres⟩
    have hbits : w &&& 0xF0000000#32 = op.pattern := by
      rw [(opcodeBits_eq_iff w op.pattern).mpr hop, op.pattern_and_opcodeBits]
    rw [hop] at hres
    rw [op.mask_eq, BitVec.and_or_distrib_left, hbits, hres]
    exact BitVec.or_zero

/-! ### The decoder's three outcomes -/

theorem decode_of_illegal (w : Word) (h : opcodeOf (opcodeField w) = none) : decode w = .illegalOpcode := by
  rw [decode, h]

/-- A word of a defined opcode is a command or has a reserved bit set (R74). -/
theorem decode_of_defined (w : Word) (op : Opcode) (h : opcodeOf (opcodeField w) = some op) :
    decode w = if w &&& reservedBitsOf (opcodeField w) = 0 then .command (op.withOperands w) else .reservedBits := by
  have hmask := mask_test_iff w op
  rw [← opcodeOf_eq_some_iff, h] at hmask
  rw [decode, h]
  simp [hmask]

/-- One mask test is enough: the rows' patterns exclude each other, so the row that passes is the opcode's. -/
theorem decode_of_mask_test (w : Word) (op : Opcode) (h : w &&& op.mask = op.pattern) :
    decode w = .command (op.withOperands w) := by
  obtain ⟨hop, hres⟩ := (mask_test_iff w op).mp h
  rw [decode_of_defined w op ((opcodeOf_eq_some_iff _ op).mpr hop), if_pos hres]

theorem decode_isCommand_iff (w : Word) :
    (∃ i, decode w = .command i) ↔ ∃ op : Opcode, w &&& op.mask = op.pattern := by
  constructor
  · rintro ⟨i, hi⟩
    obtain ⟨op, -, hmask, -⟩ := decode_command_cases w i hi
    exact ⟨op, hmask⟩
  · rintro ⟨op, hmask⟩
    exact ⟨_, decode_of_mask_test w op hmask⟩

theorem decode_eq_illegalOpcode_iff (w : Word) :
    decode w = .illegalOpcode ↔ opcodeOf (opcodeField w) = none := by
  cases h : opcodeOf (opcodeField w) with
  | none => simp [decode_of_illegal w h]
  | some op =>
    rw [decode_of_defined w op h]
    split <;> simp

theorem decode_eq_reservedBits_iff (w : Word) :
    decode w = .reservedBits ↔
      opcodeOf (opcodeField w) ≠ none ∧ w &&& reservedBitsOf (opcodeField w) ≠ 0 := by
  cases h : opcodeOf (opcodeField w) with
  | none => simp [decode_of_illegal w h]
  | some op =>
    rw [decode_of_defined w op h]
    split
    next hres => exact iff_of_false (by simp) fun ⟨_, hset⟩ => hset hres
    next hres => exact iff_of_true rfl ⟨by simp, hres⟩

/-- Settles O3: one lemma for each outcome of the decoder, R76's words of it. -/
theorem everyWordIsOneOfThreeKinds : Obligations.EveryWordIsOneOfThreeKinds := by
  intro w
  have hillegal := opcodeOf_opcodeField_eq_none_iff w
  refine ⟨decode_isCommand_iff w, ?_, (decode_eq_illegalOpcode_iff w).trans hillegal⟩
  rw [decode_eq_reservedBits_iff, ne_eq, hillegal, opcodeField_eq]

/-! ### Operands -/

@[simp] theorem Opcode.opcode_withOperands (op : Opcode) (w : Word) : (op.withOperands w).opcode = op := by
  cases op <;> rfl

/-- A decoded command's operands are the word's fields (R73). -/
theorem withOperands_of_decode (w : Word) (i : Instr) (h : decode w = .command i) : i.opcode.withOperands w = i := by
  obtain ⟨op, -, -, rfl⟩ := decode_command_cases w i h
  rw [Opcode.opcode_withOperands]

/-- A word that is the encoding of a well-formed command, as a number, decodes to the command its fields make. -/
theorem decode_of_toNat_encode (w : Word) (i : Instr) (hlaw : Laws.Encoding.Statement i) (hi : i.wellFormed = true)
    (hw : w.toNat = (encode i).toNat) : decode w = .command (i.opcode.withOperands w) := by
  obtain ⟨-, hmask⟩ := hlaw hi
  rw [← BitVec.eq_of_toNat_eq hw] at hmask
  exact decode_of_mask_test w i.opcode hmask

theorem decode_tblBegin_of_toNat (w : Word) (idx len : Nat) (hi : idx ≤ 1023) (hl : len ≤ 1023)
    (hw : w.toNat = 0x20000000 + len * 65536 + idx) : decode w = .command (.tblBegin idx len) := by
  have hidx : indexField w = idx := by rw [indexField_eq]; omega
  have hlen : lengthField w = len := by rw [lengthField_eq]; omega
  rw [decode_of_toNat_encode w _ (Laws.Encoding.tblBegin idx len)
    (by simp [Instr.wellFormed, indexFits, lengthFits, hi, hl]) (by rw [hw, encode_tblBegin_toNat idx len hi hl])]
  simp only [Instr.opcode, Opcode.withOperands, hidx, hlen]

theorem decode_tblData_of_toNat (w : Word) (data : Half) (hw : w.toNat = 0x30000000 + data.toNat) :
    decode w = .command (.tblData data) := by
  have hdata : dataField w = data := by
    apply BitVec.eq_of_toNat_eq
    rw [dataField_toNat]
    omega
  rw [decode_of_toNat_encode w _ (Laws.Encoding.tblData data) rfl (by rw [hw, encode_tblData_toNat])]
  simp only [Instr.opcode, Opcode.withOperands, hdata]

theorem decode_sym_of_toNat (w : Word) (idx : Nat) (hi : idx ≤ 1023) (hw : w.toNat = 0x80000000 + idx) :
    decode w = .command (.sym idx) := by
  have hidx : indexField w = idx := by rw [indexField_eq]; omega
  rw [decode_of_toNat_encode w _ (Laws.Encoding.sym idx) (by simp [Instr.wellFormed, indexFits, hi])
    (by rw [hw, encode_sym_toNat idx hi])]
  simp only [Instr.opcode, Opcode.withOperands, hidx]

/-- Settles O4: the decoded operands are the word's fields, and a word made of its fields decodes to them. -/
theorem operandsAreUnsignedFields : Obligations.OperandsAreUnsignedFields := by
  intro w
  refine ⟨?_, ?_, ?_, decode_tblBegin_of_toNat w, decode_tblData_of_toNat w, decode_sym_of_toNat w⟩
  · intro idx len h
    obtain ⟨rfl, rfl⟩ := Instr.tblBegin.inj (withOperands_of_decode w _ h)
    exact ⟨indexField_eq w, lengthField_eq w⟩
  · intro data h
    obtain rfl := Instr.tblData.inj (withOperands_of_decode w _ h)
    exact dataField_toNat w
  · intro idx h
    obtain rfl := Instr.sym.inj (withOperands_of_decode w _ h)
    exact indexField_eq w

end Sys2Proof

/-! PROOF. The code-table commands TBL_CLR, TBL_BEGIN and TBL_DATA (40_code_table.md R100 to R112): what each answers, what a command can do to the table and the load registers, and the data words of a load counted by an induction over commands. -/

namespace Sys2Proof.Machine

/-- A number up to 1023 fits the 10-bit registers and lengths. -/
theorem toNat_ofNat_short (n : Nat) (h : n ≤ 1023) : (BitVec.ofNat 10 n).toNat = n := by
  rw [BitVec.toNat_ofNat, Nat.mod_eq_of_lt (by omega)]

/-! ### What the table commands and SYM answer, case by case -/

theorem exec_tblBegin_legal (s : State) (idx len : Nat) (he : s.err = false) (hidx : idx < s.params.capacity)
    (hlen : len ≤ s.params.maxLen) : exec (.tblBegin idx len) s = .next (s.beginLoad idx len) := by
  rw [exec_tblBegin s idx len he, if_pos hidx, if_pos hlen]

theorem exec_tblData_loading (s : State) (data : Half) (he : s.err = false) (ha : s.ldActive = true) :
    exec (.tblData data) s = .next (s.loadData data) := by
  rw [exec_tblData s data he, if_pos ha]

theorem exec_tblData_noLoad (s : State) (data : Half) (he : s.err = false) (ha : s.ldActive = false) :
    exec (.tblData data) s = .next (s.raise .noLoad) := by
  rw [exec_tblData s data he, if_neg (by simp [ha])]

theorem exec_sym_undefined (s : State) (idx : Nat) (he : s.err = false) (hidx : idx < s.params.capacity)
    (hv : (s.entry idx).valid = false) : exec (.sym idx) s = .next (s.raise .undefinedCode) := by
  rw [exec_sym s idx he, if_pos hidx, if_neg (by simp [hv])]

theorem exec_sym_valid (s : State) (idx : Nat) (he : s.err = false) (hidx : idx < s.params.capacity)
    (hv : (s.entry idx).valid = true) : exec (.sym idx) s = .next (s.putBits (s.entry idx).code) := by
  rw [exec_sym s idx he, if_pos hidx, if_pos hv]

/-! ### Errors along a list of commands -/

/-- In the error state a whole list of commands is discarded (60_exceptions.md R165). -/
theorem execAll_error (is : List Instr) (s : State) (h : s.err = true) : execAll is s = .next s := by
  induction is with
  | nil => rfl
  | cons i is ih => rw [execAll_cons_next i is s s (exec_error i s h), ih]

/-- A list of one more command answers through the state its first command answers. -/
theorem execAll_cons_cases (i : Instr) (is : List Instr) (s t : State) (h : execAll (i :: is) s = .next t) :
    ∃ u, exec i s = .next u ∧ execAll is u = .next t := by
  obtain ⟨u, hu, -⟩ := exec_withOutside i s [] none
  exact ⟨u, hu, by rwa [execAll_cons_next i is s u hu] at h⟩

/-- Commands that end without an error began without one. -/
theorem err_false_of_execAll (is : List Instr) (s t : State) (h : execAll is s = .next t) (ht : t.err = false) :
    s.err = false := by
  cases hs : s.err with
  | false => rfl
  | true =>
    rw [execAll_error is s hs] at h
    obtain rfl := Host.Outcome.next.inj h
    rw [← ht, hs]

/-! ### The writes of TBL_BEGIN and TBL_DATA -/

theorem State.beginLoad_wf (s : State) (idx len : Nat) (hwf : Memory.wf s.table = true) :
    Memory.wf (s.beginLoad idx len).table = true := by
  rw [s.beginLoad_table idx len]
  exact CodeTable.write_wf _ _ _ hwf

theorem State.loadData_wf (s : State) (data : Half) (hwf : Memory.wf s.table = true) :
    Memory.wf (s.loadData data).table = true := by
  rw [s.loadData_table data _ rfl]
  exact CodeTable.write_wf _ _ _ hwf

/-- The cursor stays a 10-bit number: it never passes the larger of itself and the entry's length. -/
theorem cursor_add_loadCount_le (e : Entry) (cur : Short) : cur.toNat + loadCount e cur ≤ 1023 := by
  have hlen := e.len.isLt
  have hcur := cur.isLt
  unfold loadCount
  omega

theorem State.loadData_cursor (s : State) (data : Half) (k : Nat) (hk : k = loadCount (s.entry s.ldIdx.toNat) s.ldCur) :
    (s.loadData data).ldCur.toNat = s.ldCur.toNat + k := by
  obtain ⟨hcur, -⟩ := s.loadData_load data k hk
  rw [hcur]
  exact toNat_ofNat_short _ (by rw [hk]; exact cursor_add_loadCount_le _ _)

/-- TBL_DATA writes no entry but the one in load. -/
theorem State.loadData_entry_ne (s : State) (data : Half) (j : Nat) (hj : j ≠ s.ldIdx.toNat) :
    (s.loadData data).entry j = s.entry j := by
  rw [State.entry_eq, s.loadData_table data _ rfl]
  exact CodeTable.read_write_ne _ _ _ _ hj

/-- The entry in load after a TBL_DATA, `k` being the number of bits it stores. -/
theorem State.loadData_entry_self (s : State) (data : Half) (k : Nat)
    (hk : k = loadCount (s.entry s.ldIdx.toNat) s.ldCur) (hwf : Memory.wf s.table = true) :
    (s.loadData data).entry s.ldIdx.toNat = { s.entry s.ldIdx.toNat with
      valid := if s.ldCur.toNat + k = (s.entry s.ldIdx.toNat).len.toNat then true
        else (s.entry s.ldIdx.toNat).valid
      bits := storeBits (s.entry s.ldIdx.toNat).bits s.ldCur.toNat data k } := by
  rw [State.entry_eq, s.loadData_table data k hk]
  exact CodeTable.read_write_self _ _ _ hwf

/-- Every bit of the entry in load after a TBL_DATA: the data's first `k` bits from the cursor on, the others kept. -/
theorem State.loadData_bits (s : State) (data : Half) (k j : Nat)
    (hk : k = loadCount (s.entry s.ldIdx.toNat) s.ldCur) (hwf : Memory.wf s.table = true) :
    ((s.loadData data).entry s.ldIdx.toNat).bits.getLsbD j =
      if s.ldCur.toNat ≤ j ∧ j < s.ldCur.toNat + k then data.getLsbD (15 - (j - s.ldCur.toNat))
      else (s.entry s.ldIdx.toNat).bits.getLsbD j := by
  rw [s.loadData_entry_self data k hk hwf]
  exact getLsbD_storeBits _ _ _ _ _ (by rw [hk]; exact cursor_add_loadCount_le _ _)

/-- Words that agree on their first `k` bits store the same bits. -/
theorem storeBits_congr (bits : CodeBits) (cur : Nat) (a b : Half) (k : Nat)
    (h : ∀ j, j < k → a.getLsbD (15 - j) = b.getLsbD (15 - j)) : storeBits bits cur a k = storeBits bits cur b k := by
  refine List.foldl_ext _ _ _ fun x j hj => ?_
  rw [dataBit, dataBit, h j (List.mem_range.1 hj)]

/-- TBL_DATA reads the bits of its word that it stores, and no other. -/
theorem State.loadData_congr (s : State) (a b : Half)
    (h : ∀ j, j < loadCount (s.entry s.ldIdx.toNat) s.ldCur → a.getLsbD (15 - j) = b.getLsbD (15 - j)) :
    s.loadData a = s.loadData b := by
  unfold State.loadData
  simp only [storeBits_congr _ _ a b _ h]

/-! ### What a command can do to the table and the load registers -/

/-- The bit step writes `ACC`, `BITPOS` and the output stream only. -/
theorem State.putBits_frame (bits : List Bool) : ∀ s : State,
    s.putBits bits = { s with
      acc := (s.putBits bits).acc, bitpos := (s.putBits bits).bitpos, out := (s.putBits bits).out } := by
  induction bits with
  | nil => exact fun s => rfl
  | cons b bits ih =>
    intro s
    have hbit (acc : Byte) (bitpos : BitVec 3) (out : List OutItem) :
        ({ s.putBit b with acc := acc, bitpos := bitpos, out := out } : State) =
          { s with acc := acc, bitpos := bitpos, out := out } := by
      unfold State.putBit
      dsimp only
      split <;> rfl
    exact (ih (s.putBit b)).trans (hbit _ _ _)

/-- A command either leaves the table and the load registers, being a SYM, an END, or one that is discarded or raises;
or it is a table command that takes effect. -/
theorem exec_table_cases (i : Instr) (s t : State) (h : exec i s = .next t) :
    (t.table = s.table ∧ State.SameLoadRegs s t ∧ t.params = s.params ∧
      (t.err = true ∨ (∃ idx, i = .sym idx) ∨ i = .endStream)) ∨
    (i = .tblClr ∧ t = s.clearTable.endLoad) ∨
    (∃ idx len, i = .tblBegin idx len ∧ idx < s.params.capacity ∧ len ≤ s.params.maxLen ∧ t = s.beginLoad idx len) ∨
    (∃ data, i = .tblData data ∧ s.ldActive = true ∧ t = s.loadData data) := by
  cases he : s.err with
  | true =>
    rw [exec_error i s he] at h
    obtain rfl := Host.Outcome.next.inj h
    exact .inl ⟨rfl, ⟨rfl, rfl, rfl⟩, rfl, .inl he⟩
  | false =>
    have hraise (c : ErrorCause) : (s.raise c).table = s.table ∧ State.SameLoadRegs s (s.raise c) ∧
        (s.raise c).params = s.params ∧ ((s.raise c).err = true ∨ (∃ idx, i = .sym idx) ∨ i = .endStream) :=
      ⟨rfl, ⟨rfl, rfl, rfl⟩, rfl, .inl rfl⟩
    cases i with
    | tblClr =>
      rw [exec_tblClr s he] at h
      exact .inr (.inl ⟨rfl, (Host.Outcome.next.inj h).symm⟩)
    | tblBegin idx len =>
      rw [exec_tblBegin s idx len he] at h
      obtain rfl := Host.Outcome.next.inj h
      split
      next hidx =>
        split
        next hlen => exact .inr (.inr (.inl ⟨idx, len, rfl, hidx, hlen, rfl⟩))
        next => exact .inl (hraise _)
      next => exact .inl (hraise _)
    | tblData data =>
      rw [exec_tblData s data he] at h
      obtain rfl := Host.Outcome.next.inj h
      split
      next ha => exact .inr (.inr (.inr ⟨data, rfl, ha, rfl⟩))
      next => exact .inl (hraise _)
    | sym idx =>
      rw [exec_sym s idx he] at h
      obtain rfl := Host.Outcome.next.inj h
      left
      split
      · split
        · rw [State.putBits_frame]
          exact ⟨rfl, ⟨rfl, rfl, rfl⟩, rfl, .inr (.inl ⟨idx, rfl⟩)⟩
        · exact hraise _
      · exact hraise _
    | endStream =>
      rw [exec_endStream s he, s.flush_eq] at h
      obtain rfl := Host.Outcome.next.inj h
      exact .inl ⟨rfl, ⟨rfl, rfl, rfl⟩, rfl, .inr (.inr rfl)⟩

theorem exec_keeps_params (i : Instr) (s t : State) (h : exec i s = .next t) : t.params = s.params := by
  rcases exec_table_cases i s t h with ⟨-, -, hp, -⟩ | ⟨-, rfl⟩ | ⟨idx, len, -, -, -, rfl⟩ | ⟨data, -, -, rfl⟩
  · exact hp
  · rfl
  · obtain ⟨-, -, -, -, -, hp⟩ := s.beginLoad_frame idx len
    exact hp
  · obtain ⟨-, -, ⟨-, -, -, hp⟩, -⟩ := s.loadData_frame data
    exact hp

/-- Equal tables hold equal entries. -/
theorem State.entry_of_table_eq (s t : State) (h : t.table = s.table) (j : Nat) : t.entry j = s.entry j := by
  rw [State.entry_eq, h, ← State.entry_eq]

/-- Every command keeps the table canonical. -/
theorem exec_keeps_wf (i : Instr) (s t : State) (h : exec i s = .next t) (hwf : Memory.wf s.table = true) :
    Memory.wf t.table = true := by
  rcases exec_table_cases i s t h with ⟨htab, -⟩ | ⟨-, rfl⟩ | ⟨idx, len, -, -, -, rfl⟩ | ⟨data, -, -, rfl⟩
  · rwa [htab]
  · exact CodeTable.clearValid_wf _ hwf
  · exact s.beginLoad_wf idx len hwf
  · exact s.loadData_wf data hwf

/-! ### TBL_CLR (R101) -/

/-- The entries after a TBL_CLR. -/
theorem State.clearTable_entry (s : State) (j : Nat) (hwf : Memory.wf s.table = true) :
    s.clearTable.entry j = { s.entry j with valid := false } :=
  CodeTable.read_clearValid s.table j hwf

/-- Opcode 1 has one command word: all its other bits are reserved (30_encoding.md R71, R72). -/
theorem decode_of_opcode_one (w : Word) (h : w.toNat / 2 ^ 28 = 0x1) :
    decode w = if w = 0x10000000#32 then .command .tblClr else .reservedBits := by
  have hfield : opcodeField w = 0x1 := by rw [opcodeField_eq, h]
  have hop : opcodeOf (opcodeField w) = some .tblClr := by rw [hfield]; rfl
  have hword : w &&& reservedBitsOf (opcodeField w) = 0 ↔ w = 0x10000000#32 := by
    have hmask := mask_test_iff w .tblClr
    rw [show Opcode.tblClr.mask = BitVec.allOnes 32 from rfl, BitVec.and_allOnes] at hmask
    exact ⟨fun hres => hmask.mpr ⟨hfield, hres⟩, fun hw => (hmask.mp hw).2⟩
  rw [decode_of_defined w .tblClr hop]
  simp only [hword, Opcode.withOperands]

/-- Settles O27: TBL_CLR answers the cleared table with no load in progress, and its mask covers all 32 bits. -/
theorem tblClrInvalidatesEveryEntry : Obligations.TblClrInvalidatesEveryEntry := by
  refine ⟨fun s hinv he => ?_, fun w hw => ?_⟩
  · have hentry (j : Nat) := s.clearTable_entry j hinv.table.1
    refine ⟨_, exec_tblClr s he, hentry, rfl, rfl, rfl, ⟨rfl, rfl, rfl⟩, ⟨rfl, rfl⟩, ⟨rfl, rfl, rfl, rfl⟩, ?_⟩
    intro idx hidx
    refine exec_sym_undefined _ idx he hidx ?_
    rw [State.endLoad_entry, hentry idx]
  · rw [decode_of_opcode_one w hw]
    split
    next h => simp [h]
    next h => simp [h]

/-! ### TBL_BEGIN (R105 to R108) -/

/-- A TBL_BEGIN of nonzero length makes its entry invalid with the new length, and starts its load at the first bit. -/
theorem State.beginLoad_started (s : State) (idx len : Nat) (hwf : Memory.wf s.table = true) (hidx : idx ≤ 1023)
    (hlen : len ≤ 1023) (hpos : len ≠ 0) :
    ((s.beginLoad idx len).entry idx).valid = false ∧ ((s.beginLoad idx len).entry idx).len.toNat = len ∧
      (s.beginLoad idx len).ldActive = true ∧ (s.beginLoad idx len).ldIdx.toNat = idx ∧
      (s.beginLoad idx len).ldCur = 0 := by
  obtain ⟨-, hstart⟩ := s.beginLoad_load idx len
  obtain ⟨hactive, hldIdx, hcur⟩ := hstart hpos
  have hentry := s.beginLoad_entry idx len idx hwf
  rw [if_pos rfl] at hentry
  refine ⟨?_, ?_, hactive, ?_, hcur⟩
  · rw [hentry]
    exact decide_eq_false hpos
  · rw [hentry]
    exact toNat_ofNat_short len hlen
  · rw [hldIdx]
    exact toNat_ofNat_short idx hidx

/-- Settles O28: the branches of TBL_BEGIN in R105's order, with the laws of its writes. -/
theorem tblBeginStartsLoad : Obligations.TblBeginStartsLoad := by
  intro s idx len hinv he
  obtain ⟨-, hcap, -, hmax⟩ := hinv.params
  refine ⟨fun hidx => ?_, fun hidx hlen => ?_, fun hidx hlen => ?_, fun hidx hlen => ?_⟩
  · rw [exec_tblBegin s idx len he, if_neg (by omega)]
    rfl
  · rw [exec_tblBegin s idx len he, if_pos hidx, if_neg (by omega)]
    rfl
  · have hentry (j : Nat) := s.beginLoad_entry idx len j hinv.table.1
    obtain ⟨hempty, -⟩ := s.beginLoad_load idx len
    obtain ⟨hstream, hstatus, houtside⟩ := s.beginLoad_frame idx len
    refine ⟨_, exec_tblBegin_legal s idx len he hidx hlen, ?_, ?_, fun h0 => ⟨?_, hempty h0⟩, fun h1 => ?_,
      fun j hj => ?_, hstream, hstatus, houtside⟩
    · rw [hentry idx, if_pos rfl]
      exact toNat_ofNat_short len (by omega)
    · rw [hentry idx, if_pos rfl]
    · rw [hentry idx, if_pos rfl]
      exact decide_eq_true h0
    · obtain ⟨hinvalid, -, hload⟩ :=
        s.beginLoad_started idx len hinv.table.1 (by omega) (by omega) (by omega)
      exact ⟨hinvalid, hload⟩
    · rw [hentry j, if_neg hj]
  · exact decode_tblBegin_of_toNat _ idx len hidx hlen (encode_tblBegin_toNat idx len hidx hlen)

/-- Settles O29: the entry holds a code of no bits, so SYM runs no bit step, and no load is left for a TBL_DATA. -/
theorem emptyCodeIsDefinedAtOnce : Obligations.EmptyCodeIsDefinedAtOnce := by
  intro s idx hinv he hidx
  obtain ⟨hempty, -⟩ := s.beginLoad_load idx 0
  obtain ⟨hidle, -, -⟩ := hempty rfl
  have hentry : (s.beginLoad idx 0).entry idx = { s.entry idx with valid := true, len := 0 } := by
    rw [s.beginLoad_entry idx 0 idx hinv.table.1, if_pos rfl]
    rfl
  have hcode : ((s.beginLoad idx 0).entry idx).code = [] := by rw [hentry]; rfl
  refine ⟨_, exec_tblBegin_legal s idx 0 he hidx (by omega), by rw [hentry], by rw [hentry], he, ?_,
    fun data => exec_tblData_noLoad _ data he hidle⟩
  rw [exec_sym_valid (s.beginLoad idx 0) idx he hidx (by rw [hentry]), hcode]
  rfl

/-- Entry `j` is not valid and no load of it is in progress: only a TBL_BEGIN of `j` can change that. The table's form
and the bound on `N` are what reading `j` and comparing `LD_IDX` with `j` rest on. -/
structure State.Abandoned (s : State) (j : Nat) : Prop where
  wf : Memory.wf s.table = true
  capacity : s.params.capacity ≤ 1024
  invalid : (s.entry j).valid = false
  notLoading : s.ldActive = true → s.ldIdx.toNat ≠ j

/-- A TBL_BEGIN abandons every other entry that is not valid, the one in load among them. -/
theorem State.beginLoad_abandoned (s : State) (idx len j : Nat) (hwf : Memory.wf s.table = true)
    (hcap : s.params.capacity ≤ 1024) (hinvalid : (s.entry j).valid = false) (hidx : idx < s.params.capacity)
    (hne : j ≠ idx) : (s.beginLoad idx len).Abandoned j := by
  obtain ⟨-, -, -, -, -, hparams⟩ := s.beginLoad_frame idx len
  obtain ⟨hempty, hstart⟩ := s.beginLoad_load idx len
  refine ⟨s.beginLoad_wf idx len hwf, by rwa [hparams], ?_, fun hactive => ?_⟩
  · rw [s.beginLoad_entry idx len j hwf, if_neg hne]
    exact hinvalid
  · by_cases hlen : len = 0
    · obtain ⟨hidle, -, -⟩ := hempty hlen
      rw [hidle] at hactive
      cases hactive
    · obtain ⟨-, hldIdx, -⟩ := hstart hlen
      rw [hldIdx, toNat_ofNat_short _ (by omega)]
      exact hne.symm

/-- A command that is not a TBL_BEGIN of an abandoned entry leaves it abandoned. -/
theorem exec_keeps_abandoned (i : Instr) (s t : State) (j : Nat) (hs : s.Abandoned j) (h : exec i s = .next t)
    (hi : ∀ len, i ≠ .tblBegin j len) : t.Abandoned j := by
  have hwf := exec_keeps_wf i s t h hs.wf
  have hcap : t.params.capacity ≤ 1024 := by rw [exec_keeps_params i s t h]; exact hs.capacity
  rcases exec_table_cases i s t h with
    ⟨htab, ⟨ha, hldIdx, -⟩, -, -⟩ | ⟨-, rfl⟩ | ⟨idx, len, rfl, hidx, -, rfl⟩ | ⟨data, -, ha, rfl⟩
  · refine ⟨hwf, hcap, ?_, ?_⟩
    · rw [s.entry_of_table_eq t htab]
      exact hs.invalid
    · rw [ha, hldIdx]
      exact hs.notLoading
  · refine ⟨hwf, hcap, ?_, fun hactive => by cases hactive⟩
    rw [State.endLoad_entry, s.clearTable_entry j hs.wf]
  · have hne : j ≠ idx := by
      rintro rfl
      exact hi len rfl
    exact s.beginLoad_abandoned idx len j hs.wf hs.capacity hs.invalid hidx hne
  · have hne := hs.notLoading ha
    obtain ⟨-, -, -, hldIdx⟩ := s.loadData_frame data
    refine ⟨hwf, hcap, ?_, fun _ => by rw [hldIdx]; exact hne⟩
    rw [s.loadData_entry_ne data j hne.symm]
    exact hs.invalid

theorem execAll_keeps_abandoned (is : List Instr) (t : State) (j : Nat) (hi : ∀ len, .tblBegin j len ∉ is) :
    ∀ s : State, s.Abandoned j → execAll is s = .next t → t.Abandoned j := by
  induction is with
  | nil =>
    intro s hs h
    obtain rfl := Host.Outcome.next.inj h
    exact hs
  | cons i is ih =>
    intro s hs h
    obtain ⟨u, hu, hrest⟩ := execAll_cons_cases i is s t h
    have hhead (len : Nat) : i ≠ .tblBegin j len := fun hlen => hi len (by simp [hlen])
    have htail (len : Nat) : .tblBegin j len ∉ is := fun hlen => hi len (by simp [hlen])
    exact ih htail u (exec_keeps_abandoned i s u j hs hu hhead) hrest

/-- Settles O30: another entry's TBL_BEGIN leaves the entry abandoned, and only its own TBL_BEGIN ends that. -/
theorem abandonedLoadStaysInvalid : Obligations.AbandonedLoadStaysInvalid := by
  intro s idx len hinv he ha hidx hlen
  obtain ⟨-, hcap, -, hmax⟩ := hinv.params
  obtain ⟨-, hinvalid, -, -⟩ := hinv.load ha
  obtain ⟨-, ⟨herr, -⟩, -⟩ := s.beginLoad_frame idx len
  refine ⟨_, exec_tblBegin_legal s idx len he hidx hlen, by rw [herr, he], fun hne => ?_, fun heq hpos => ?_⟩
  · have hother := s.beginLoad_abandoned idx len _ hinv.table.1 hcap hinvalid hidx hne.symm
    exact ⟨hother.invalid, fun is u his h => (execAll_keeps_abandoned is u _ his _ hother h).invalid⟩
  · obtain ⟨hv, hl, hactive, hldIdx, hcur⟩ :=
      s.beginLoad_started idx len hinv.table.1 (by omega) (by omega) (by omega)
    exact ⟨hv, hl, hactive, BitVec.eq_of_toNat_eq (hldIdx.trans heq), hcur⟩

/-- A command that finds an entry valid and leaves it valid leaves it as it was, or defines it anew as the empty code:
every other write to an entry makes it invalid or goes to one that is not valid, the one in load. -/
theorem exec_valid_entry_unchanged (i : Instr) (s t : State) (j : Nat) (hs : s.Inv) (h : exec i s = .next t)
    (hv : (s.entry j).valid = true) (hv' : (t.entry j).valid = true) : t.entry j = s.entry j ∨ i = .tblBegin j 0 := by
  rcases exec_table_cases i s t h with ⟨htab, -⟩ | ⟨-, rfl⟩ | ⟨idx, len, rfl, -, -, rfl⟩ | ⟨data, -, ha, rfl⟩
  · exact .inl (s.entry_of_table_eq t htab j)
  · rw [State.endLoad_entry, s.clearTable_entry j hs.table.1] at hv'
    cases hv'
  · rw [s.beginLoad_entry idx len j hs.table.1] at hv' ⊢
    split at hv'
    next hj => exact .inr (by rw [hj, of_decide_eq_true hv'])
    next hj => exact .inl (if_neg hj)
  · obtain ⟨-, hinvalid, -, -⟩ := hs.load ha
    have hne : j ≠ s.ldIdx.toNat := by
      rintro rfl
      rw [hinvalid] at hv
      cases hv
    exact .inl (s.loadData_entry_ne data j hne)

/-- Settles O31: an entry in load is not valid, so a SYM of it raises, and no write goes to an entry that stays valid. -/
theorem validEntriesAreNeverPatched : Obligations.ValidEntriesAreNeverPatched := by
  refine ⟨fun s idx len hinv he hidx hpos hlen => ?_, fun s hinv he ha => ?_,
    fun s t i j hinv h hv hv' => exec_valid_entry_unchanged i s t j hinv h hv hv'⟩
  · obtain ⟨-, hcap, -, hmax⟩ := hinv.params
    obtain ⟨-, ⟨herr, -⟩, -, -, -, hparams⟩ := s.beginLoad_frame idx len
    obtain ⟨hinvalid, -⟩ := s.beginLoad_started idx len hinv.table.1 (by omega) (by omega) (by omega)
    exact ⟨_, exec_tblBegin_legal s idx len he hidx hlen,
      exec_sym_undefined _ idx (by rw [herr, he]) (by rwa [hparams]) hinvalid⟩
  · obtain ⟨hidx, hinvalid, -, -⟩ := hinv.load ha
    exact exec_sym_undefined s _ he hidx hinvalid

/-! ### TBL_DATA (R109 to R111) -/

/-- Settles O32: each named command leaves `LD_ACTIVE = 0`, and a TBL_DATA then takes the branch that raises. -/
theorem tblDataWithoutLoadRaises : Obligations.TblDataWithoutLoadRaises := by
  refine ⟨exec_tblData_noLoad, rfl, fun s t he h => ?_, fun s t idx he hidx h => ?_, fun s t data he ha hlast h => ?_⟩
  · rw [exec_tblClr s he] at h
    obtain rfl := Host.Outcome.next.inj h
    rfl
  · rw [exec_tblBegin_legal s idx 0 he hidx (Nat.zero_le _)] at h
    obtain rfl := Host.Outcome.next.inj h
    obtain ⟨hempty, -⟩ := s.beginLoad_load idx 0
    exact (hempty rfl).1
  · rw [exec_tblData_loading s data he ha] at h
    obtain rfl := Host.Outcome.next.inj h
    obtain ⟨-, hactive⟩ := s.loadData_load data _ rfl
    rw [hactive]
    exact if_pos hlast.symm

/-- Settles O33: the laws of TBL_DATA's writes, with the bounds of the cursor that the invariant gives. -/
theorem tblDataStoresCodeBits : Obligations.TblDataStoresCodeBits := by
  refine ⟨exec_tblData_noLoad, ?_, fun data => decode_tblData_of_toNat _ data (encode_tblData_toNat data)⟩
  rintro s data _ _ k hinv he ha rfl rfl hk
  obtain ⟨-, hinvalid, -, hcur⟩ := hinv.load ha
  have hentry := s.loadData_entry_self data k hk hinv.table.1
  have hbits (j : Nat) := s.loadData_bits data k j hk hinv.table.1
  obtain ⟨-, hactive⟩ := s.loadData_load data k hk
  obtain ⟨hstream, hstatus, houtside, hldIdx⟩ := s.loadData_frame data
  refine ⟨by omega, by omega, _, exec_tblData_loading s data he ha, fun j hj => ?_, fun j hj => ?_, by rw [hentry],
    s.loadData_cursor data k hk, hldIdx, ?_, ?_, fun j hj => s.loadData_entry_ne data j hj, hstream, hstatus, houtside⟩
  · rw [hbits, if_pos (by omega), Nat.add_sub_cancel_left]
  · rw [hbits, if_neg (by omega)]
  · rw [hentry]
    simp [hinvalid]
  · rw [hactive]
    simp [ha]

/-- Settles O34: TBL_DATA reads only the `k` bits it stores. -/
theorem unusedDataBitsAreIgnored : Obligations.UnusedDataBitsAreIgnored := by
  intro s a b hinv he ha hab
  obtain ⟨-, ⟨herr, -⟩, -⟩ := s.loadData_frame a
  have hexec := exec_tblData_loading s a he ha
  refine ⟨?_, _, hexec, by rw [herr, he]⟩
  rw [hexec, exec_tblData_loading s b he ha, s.loadData_congr a b hab]

/-! ### A whole load (R112) -/

@[simp] theorem length_dataBits (data : Half) : (dataBits data).length = 16 := by simp [dataBits]

theorem length_flatMap_dataBits (ws : List Half) : (ws.flatMap dataBits).length = 16 * ws.length := by
  simp [List.length_flatMap, Nat.mul_comm]

/-- One word more carries the bits of the words before it, then its own, `data[15]` first. -/
theorem getD_flatMap_dataBits_snoc (ws : List Half) (data : Half) (j : Nat) (hj : j < 16 * ws.length + 16) :
    ((ws ++ [data]).flatMap dataBits).getD j false =
      if j < 16 * ws.length then (ws.flatMap dataBits).getD j false else data.getLsbD (15 - (j - 16 * ws.length)) := by
  rw [List.flatMap_append, List.flatMap_singleton]
  split
  next h => exact List.getD_append _ _ _ _ (by rwa [length_flatMap_dataBits])
  next h =>
    rw [List.getD_append_right _ _ _ _ (by rw [length_flatMap_dataBits]; omega), length_flatMap_dataBits]
    simp [dataBits, List.getD, show j - 16 * ws.length < 16 by omega]

/-- How far the load of entry `idx` with length `len` has come once its TBL_DATA have carried the words `ws`: the entry
holds the first `16 * ws.length` of its bits; until these are all `len`, the load goes on with the cursor there and the
entry is not valid; from then on the entry is valid and there is no load. No word comes after the last one needed. -/
structure State.LoadProgress (s : State) (idx len : Nat) (ws : List Half) : Prop where
  wf : Memory.wf s.table = true
  length : (s.entry idx).len.toNat = len
  bits : ∀ j, j < len → j < 16 * ws.length → (s.entry idx).bits.getLsbD j = (ws.flatMap dataBits).getD j false
  valid : (s.entry idx).valid = decide (len ≤ 16 * ws.length)
  active : s.ldActive = decide (16 * ws.length < len)
  cursor : 16 * ws.length < len → s.ldIdx.toNat = idx ∧ s.ldCur.toNat = 16 * ws.length
  count : ws.length ≤ (len + 15) / 16

/-- A TBL_BEGIN of nonzero length has loaded no word. -/
theorem State.beginLoad_progress (s : State) (idx len : Nat) (hwf : Memory.wf s.table = true) (hidx : idx ≤ 1023)
    (hlen : len ≤ 1023) (hpos : len ≠ 0) : (s.beginLoad idx len).LoadProgress idx len [] := by
  obtain ⟨hinvalid, hl, hactive, hldIdx, hcur⟩ := s.beginLoad_started idx len hwf hidx hlen hpos
  exact {
    wf := s.beginLoad_wf idx len hwf
    length := hl
    bits := fun j _ hj => by simp at hj
    valid := by simp [hinvalid, hpos]
    active := by simp [hactive, Nat.pos_of_ne_zero hpos]
    cursor := fun _ => ⟨hldIdx, by rw [hcur]; rfl⟩
    count := Nat.zero_le _ }

/-- Only the entry, the table's form and the load registers matter to a load. -/
theorem State.LoadProgress.of_same_load (s t : State) (idx len : Nat) (ws : List Half) (hs : s.LoadProgress idx len ws)
    (htab : t.table = s.table) (hregs : State.SameLoadRegs s t) : t.LoadProgress idx len ws := by
  obtain ⟨hactive, hldIdx, hldCur⟩ := hregs
  have hentry := s.entry_of_table_eq t htab idx
  obtain ⟨hwf, hl, hbits, hv, ha, hcur, hcount⟩ := hs
  constructor <;> simpa only [htab, hentry, hactive, hldIdx, hldCur]

/-- A TBL_DATA that finds the load going on carries it one word further: `k = min(16, len - LD_CUR)` is 16 before the
last word, and with the last one the cursor reaches `len`. -/
theorem State.loadData_progress (s : State) (idx len : Nat) (ws : List Half) (data : Half)
    (hs : s.LoadProgress idx len ws) (ha : s.ldActive = true) : (s.loadData data).LoadProgress idx len (ws ++ [data]) := by
  obtain ⟨hwf, hl, hbits, hv, hactive, hcursor, -⟩ := hs
  have hgoing : 16 * ws.length < len := of_decide_eq_true (hactive.symm.trans ha)
  obtain ⟨rfl, hcur⟩ := hcursor hgoing
  obtain ⟨k, hk⟩ : ∃ k, k = loadCount (s.entry s.ldIdx.toNat) s.ldCur := ⟨_, rfl⟩
  have hkval : k = min 16 (len - 16 * ws.length) := by rw [hk, loadCount, hl, hcur]
  have hentry := s.loadData_entry_self data k hk hwf
  have hnewbits (j : Nat) := s.loadData_bits data k j hk hwf
  obtain ⟨-, hnewactive⟩ := s.loadData_load data k hk
  obtain ⟨-, -, -, hldIdx⟩ := s.loadData_frame data
  have hlength : 16 * (ws ++ [data]).length = 16 * ws.length + 16 := by simp; omega
  have hlast : 16 * ws.length + k = len ↔ len ≤ 16 * ws.length + 16 := by omega
  rw [hl, hcur] at hentry hnewactive
  refine ⟨s.loadData_wf data hwf, by rw [hentry, ← hl], fun j hj hjw => ?_, ?_, ?_, fun hmore => ⟨by rw [hldIdx], ?_⟩, ?_⟩
  · rw [hlength] at hjw
    rw [getD_flatMap_dataBits_snoc ws data j hjw, hnewbits, hcur]
    split
    next hnew => rw [if_neg (by omega)]
    next hold => rw [if_pos (by omega), hbits j hj (by omega)]
  · rw [hentry, hlength, hv]
    simp [hlast, hgoing]
  · rw [hnewactive, hlength, ha]
    split
    next hdone => exact (decide_eq_false (by omega)).symm
    next hmore => exact (decide_eq_true (by omega)).symm
  · rw [s.loadData_cursor data k hk, hcur]
    omega
  · omega

theorem dataWords_cons (i : Instr) (is : List Instr) : dataWords (i :: is) = dataWords [i] ++ dataWords is := by
  cases i <;> rfl

/-- TBL_DATA, SYM and END that raise nothing carry a load on by the words of the TBL_DATA among them. -/
theorem exec_keeps_loadProgress (i : Instr) (s t : State) (idx len : Nat) (ws : List Half)
    (hs : s.LoadProgress idx len ws) (hi : keepsLoad i = true) (h : exec i s = .next t) (ht : t.err = false) :
    t.LoadProgress idx len (ws ++ dataWords [i]) := by
  rcases exec_table_cases i s t h with
    ⟨htab, hregs, -, hpacking⟩ | ⟨rfl, -⟩ | ⟨idx', len', rfl, -⟩ | ⟨data, rfl, ha, rfl⟩
  · have hnone : dataWords [i] = [] := by
      rcases hpacking with herr | ⟨idx', rfl⟩ | rfl
      · rw [ht] at herr
        cases herr
      · rfl
      · rfl
    rw [hnone, List.append_nil]
    exact hs.of_same_load s t idx len ws htab hregs
  · cases hi
  · cases hi
  · exact s.loadData_progress idx len ws data hs ha

theorem execAll_keeps_loadProgress (is : List Instr) (t : State) (idx len : Nat) (hi : ∀ i ∈ is, keepsLoad i = true)
    (ht : t.err = false) : ∀ (s : State) (ws : List Half), s.LoadProgress idx len ws → execAll is s = .next t →
      t.LoadProgress idx len (ws ++ dataWords is) := by
  induction is with
  | nil =>
    intro s ws hs h
    obtain rfl := Host.Outcome.next.inj h
    rw [dataWords, List.append_nil]
    exact hs
  | cons i is ih =>
    intro s ws hs h
    obtain ⟨u, hu, hrest⟩ := execAll_cons_cases i is s t h
    have herr := err_false_of_execAll is u t hrest ht
    have hstep := exec_keeps_loadProgress i s u idx len ws hs (hi i (by simp)) hu herr
    rw [dataWords_cons, ← List.append_assoc]
    exact ih (fun x hx => hi x (by simp [hx])) u _ hstep hrest

/-- Once all its words are loaded, the entry's code is the first `len` bits they carry. -/
theorem State.LoadProgress.code_eq (s : State) (idx len : Nat) (ws : List Half) (hs : s.LoadProgress idx len ws)
    (hall : len ≤ 16 * ws.length) : (s.entry idx).code = (ws.flatMap dataBits).take len := by
  apply List.ext_getElem
  · rw [Entry.code_length, hs.length, List.length_take, length_flatMap_dataBits, Nat.min_eq_left hall]
  · intro j hj hj'
    rw [Entry.code_length, hs.length] at hj
    have hbit := hs.bits j hj (by omega)
    rw [List.getD_eq_getElem _ _ (by rw [length_flatMap_dataBits]; omega)] at hbit
    simp [Entry.code, hbit]

/-- Settles O35, by induction on the commands after the TBL_BEGIN: each keeps the load's progress in step with the data
words so far, and `len` bits take `ceil(len/16)` words. -/
theorem loadTakesExactlyItsDataWords : Obligations.LoadTakesExactlyItsDataWords := by
  intro s t idx len is hinv he hidx hpos hlen his h ht
  obtain ⟨-, hcap, -, hmax⟩ := hinv.params
  rw [execAll_cons_next _ is s _ (exec_tblBegin_legal s idx len he hidx hlen)] at h
  have hstart := s.beginLoad_progress idx len hinv.table.1 (by omega) (by omega) (by omega)
  have hend := execAll_keeps_loadProgress is t idx len his ht _ [] hstart h
  rw [List.nil_append] at hend
  refine ⟨hend.count, fun hfewer => ⟨?_, ?_⟩, fun hexact => ⟨?_, hend.length, ?_, hend.code_eq t idx len _ (by omega)⟩⟩
  · rw [hend.valid]
    exact decide_eq_false (by omega)
  · rw [hend.active]
    exact decide_eq_true (by omega)
  · rw [hend.valid]
    exact decide_eq_true (by omega)
  · rw [hend.active]
    exact decide_eq_false (by omega)

end Sys2Proof.Machine

/-! PROOF. The packing commands SYM and END (41_packing.md R130 to R146): what each answers and does to the stream, the bits a list of commands places (`Obligations.StreamLaw`), and the bit step as the document's packer (`Obligations.StreamMatchesDocumentPacker`). -/

namespace Sys2Proof.Machine

/-! ### SYM (R133 to R136) -/

theorem exec_sym_outOfRange (s : State) (idx : Nat) (he : s.err = false) (hidx : s.params.capacity ≤ idx) :
    exec (.sym idx) s = .next (s.raise .indexRange) := by
  rw [exec_sym s idx he, if_neg (Nat.not_lt.2 hidx)]

/-- Everything a SYM can do while `ERR = 0`: place the code of a valid entry, or raise cause 3 or 6. -/
theorem exec_sym_cases (s t : State) (idx : Nat) (he : s.err = false) (h : exec (.sym idx) s = .next t) :
    t = s.putBits (s.entry idx).code ∨ ∃ c, (c = .indexRange ∨ c = .undefinedCode) ∧ t = s.raise c := by
  rw [exec_sym s idx he] at h
  obtain rfl := Host.Outcome.next.inj h
  split
  · split
    · exact .inl rfl
    · exact .inr ⟨_, .inr rfl, rfl⟩
  · exact .inr ⟨_, .inl rfl, rfl⟩

@[simp] theorem State.putBits_nil (s : State) : s.putBits [] = s := rfl

theorem State.putBits_append (s : State) (a b : List Bool) : s.putBits (a ++ b) = (s.putBits a).putBits b :=
  List.foldl_append

@[simp] theorem State.putBits_err (s : State) (bits : List Bool) : (s.putBits bits).err = s.err := by
  rw [s.putBits_frame bits]

@[simp] theorem State.putBits_params (s : State) (bits : List Bool) : (s.putBits bits).params = s.params := by
  rw [s.putBits_frame bits]

@[simp] theorem State.putBits_table (s : State) (bits : List Bool) : (s.putBits bits).table = s.table := by
  rw [s.putBits_frame bits]

@[simp] theorem State.putBits_entry (s : State) (bits : List Bool) (j : Nat) : (s.putBits bits).entry j = s.entry j :=
  s.entry_of_table_eq _ (s.putBits_table bits) j

/-- A valid entry is listed, so the invariant bounds its length by `L_MAX` (20_memory.md R50). -/
theorem State.Inv.len_le_maxLen {s : State} (hinv : s.Inv) (idx : Nat) (hv : (s.entry idx).valid = true) :
    (s.entry idx).len.toNat ≤ s.params.maxLen := by
  have hlisted : CodeTable.read s.table idx ≠ Entry.blank := by
    intro hblank
    rw [s.entry_eq, hblank] at hv
    cases hv
  exact hinv.codes _ (CodeTable.mem_of_read_ne _ _ hlisted) hv

@[simp] theorem length_dataBytes (bits : List Bool) : (dataBytes bits).length = bits.length / 8 := by simp [dataBytes]

theorem last_of_mem_dataBytes (bits : List Bool) (x : OutItem) (hx : x ∈ dataBytes bits) : x.last = false := by
  obtain ⟨t, -, rfl⟩ := List.mem_map.1 hx
  rfl

/-- Settles O40: both checks precede every bit, and the law of the bit step says what a valid entry's code does. -/
theorem symPacksItsCode : Obligations.SymPacksItsCode := by
  intro s idx hinv he
  refine ⟨exec_sym_outOfRange s idx he, exec_sym_undefined s idx he, fun hidx hv => ?_, fun hidx => ?_⟩
  · obtain ⟨hout, hpos, hheld, htail, hframe⟩ := s.putBits_spec (s.entry idx).code hinv.accTail
    rw [Entry.code_length] at hpos hheld
    have hlen := hinv.len_le_maxLen idx hv
    have hp := s.bitpos.isLt
    have hregs : State.SameLoadRegs s (s.putBits (s.entry idx).code) ∧
        State.SameStatus s (s.putBits (s.entry idx).code) ∧ State.SameOutside s (s.putBits (s.entry idx).code) := by
      rw [hframe]
      exact ⟨⟨rfl, rfl, rfl⟩, ⟨rfl, rfl⟩, ⟨rfl, rfl, rfl, rfl⟩⟩
    exact ⟨_, exec_sym_valid s idx he hidx hv, hout, by simp, Nat.div_le_div_right (by omega), hpos, hheld, htail,
      s.putBits_table _, hregs⟩
  · exact decode_sym_of_toNat _ idx hidx (encode_sym_toNat idx hidx)

/-- Settles O41: the empty code has no bit to place. -/
theorem symOfEmptyCodeChangesNothing : Obligations.SymOfEmptyCodeChangesNothing := by
  intro s idx he hidx hv hlen
  have hcode : (s.entry idx).code = [] := by rw [← List.length_eq_zero_iff, Entry.code_length, hlen]; rfl
  rw [exec_sym_valid s idx he hidx hv, hcode, s.putBits_nil]

/-- Settles O42: a SYM that places bits leaves ERR at 0, and the error entry writes ERR and CAUSE only. -/
theorem failingSymHasNoOtherEffect : Obligations.FailingSymHasNoOtherEffect := by
  intro s t idx he h ht
  rcases exec_sym_cases s t idx he h with rfl | ⟨c, hc, rfl⟩
  · rw [s.putBits_err, he] at ht
    cases ht
  · refine ⟨⟨rfl, rfl, rfl⟩, rfl, ⟨rfl, rfl, rfl⟩, ⟨rfl, rfl, rfl, rfl⟩, ?_⟩
    rcases hc with rfl | rfl
    · exact .inl rfl
    · exact .inr rfl

/-! ### END (R138 to R143) -/

/-- The items END appends: the partial byte under `FLUSH_PARTIAL = 1` with bits held, then the control byte (R138). -/
def State.endItems (s : State) : List OutItem :=
  (if s.params.flushPartial = true ∧ s.bitpos ≠ 0 then [{ data := s.acc, last := false }] else []) ++
    [{ data := BitVec.ofNat 8 s.bitpos.toNat, last := true }]

/-- The state END leaves: its items appended, both registers clear. -/
def State.closeStream (s : State) : State := { s with acc := 0x00, bitpos := 0, out := s.out ++ s.endItems }

@[simp] theorem State.closeStream_out (s : State) : s.closeStream.out = s.out ++ s.endItems := rfl
@[simp] theorem State.closeStream_bitpos (s : State) : s.closeStream.bitpos = 0 := rfl
@[simp] theorem State.closeStream_err (s : State) : s.closeStream.err = s.err := rfl

theorem exec_endStream_closes (s : State) (he : s.err = false) : exec .endStream s = .next s.closeStream := by
  rw [exec_endStream s he, s.flush_eq]
  simp [State.closeStream, State.endItems, State.emit, State.setAcc, State.controlByte]

/-- An opcode without operands has one command word: all its other bits are reserved (30_encoding.md R71, R72). -/
theorem decode_of_full_mask (op : Opcode) (hfull : op.mask = BitVec.allOnes 32) (w : Word)
    (h : opcodeField w = opcodeField op.pattern) :
    decode w = if w = op.pattern then .command (op.withOperands w) else .reservedBits := by
  have hword : w &&& reservedBitsOf (opcodeField w) = 0 ↔ w = op.pattern := by
    have hmask := mask_test_iff w op
    rw [hfull, BitVec.and_allOnes] at hmask
    exact ⟨fun hres => hmask.mpr ⟨h, hres⟩, fun hw => (hmask.mp hw).2⟩
  rw [decode_of_defined w op ((opcodeOf_eq_some_iff _ op).mpr h)]
  simp only [hword]

/-- Settles O43: END answers the closed stream's state, and its mask covers all 32 bits. -/
theorem endClosesStream : Obligations.EndClosesStream := by
  refine ⟨fun s he => ?_, fun w hw => ?_⟩
  · exact ⟨_, exec_endStream_closes s he, (List.append_assoc ..).symm, rfl, rfl, rfl, ⟨rfl, rfl, rfl⟩, ⟨rfl, rfl⟩,
      ⟨rfl, rfl, rfl, rfl⟩⟩
  · have hfield : opcodeField w = opcodeField Opcode.endStream.pattern := by rw [opcodeField_eq, hw]; rfl
    have hdecode : decode w = if w = 0x90000000#32 then .command .endStream else .reservedBits :=
      decode_of_full_mask .endStream rfl w hfield
    rw [hdecode]
    split
    next hword => simp [hword]
    next hword => simp [hword]

/-! ### What a command does to the stream (R145) -/

/-- Everything a command can do to the stream while `ERR = 0`: nothing, raising an error or placing no bit; a SYM, its
entry's code; an END, its items. -/
theorem exec_stream_cases (i : Instr) (s t : State) (he : s.err = false) (h : exec i s = .next t) :
    (i ≠ .endStream ∧ State.SameStream s t ∧ (t.err = true ∨ placedBits i s = [])) ∨
    (∃ idx, i = .sym idx ∧ t = s.putBits (s.entry idx).code) ∨
    (i = .endStream ∧ t = s.closeStream) := by
  have hraise (c : ErrorCause) : State.SameStream s (s.raise c) := ⟨rfl, rfl, rfl⟩
  cases i with
  | tblClr =>
    rw [exec_tblClr s he] at h
    obtain rfl := Host.Outcome.next.inj h
    exact .inl ⟨by simp, ⟨rfl, rfl, rfl⟩, .inr rfl⟩
  | tblBegin idx len =>
    rw [exec_tblBegin s idx len he] at h
    obtain rfl := Host.Outcome.next.inj h
    obtain ⟨hload, -, -⟩ := s.beginLoad_frame idx len
    refine .inl ⟨by simp, ?_, .inr rfl⟩
    split
    · split
      · exact hload
      · exact hraise _
    · exact hraise _
  | tblData data =>
    rw [exec_tblData s data he] at h
    obtain rfl := Host.Outcome.next.inj h
    obtain ⟨hload, -, -, -⟩ := s.loadData_frame data
    refine .inl ⟨by simp, ?_, .inr rfl⟩
    split
    · exact hload
    · exact hraise _
  | sym idx =>
    rcases exec_sym_cases s t idx he h with rfl | ⟨c, -, rfl⟩
    · exact .inr (.inl ⟨idx, rfl, rfl⟩)
    · exact .inl ⟨by simp, hraise c, .inl rfl⟩
  | endStream =>
    rw [exec_endStream_closes s he] at h
    exact .inr (.inr ⟨rfl, (Host.Outcome.next.inj h).symm⟩)

/-- With no bit held, END appends the control byte 0 alone, under either setting (R143). -/
theorem State.endItems_of_bitpos_zero (s : State) (hb : s.bitpos = 0) :
    s.endItems = [{ data := 0x00, last := true }] := by
  simp [State.endItems, hb]

@[simp] theorem controlCount_append (a b : List OutItem) : controlCount (a ++ b) = controlCount a + controlCount b :=
  List.countP_append

@[simp] theorem controlCount_dataBytes (bits : List Bool) : controlCount (dataBytes bits) = 0 := by
  rw [controlCount, List.countP_eq_zero]
  intro x hx
  simp [last_of_mem_dataBytes bits x hx]

/-- The partial byte is no control byte, and the control byte is one. -/
@[simp] theorem State.controlCount_endItems (s : State) : controlCount s.endItems = 1 := by
  unfold State.endItems
  split <;> rfl

/-- Settles O46: an END with nothing held appends the control byte 0, and of what a command can append to the stream only
END's items hold a control byte, one. -/
theorem controlBytesCountStreams : Obligations.ControlBytesCountStreams := by
  refine ⟨fun s he hb => ?_, fun s t i htail he h => ?_⟩
  · refine ⟨_, _, exec_endStream_closes s he, ?_, exec_endStream_closes s.closeStream he, ?_⟩
    · rw [s.closeStream_out, s.endItems_of_bitpos_zero hb]
    · rw [s.closeStream.closeStream_out, s.closeStream.endItems_of_bitpos_zero rfl]
  · rcases exec_stream_cases i s t he h with ⟨hi, ⟨-, -, hout⟩, -⟩ | ⟨idx, rfl, rfl⟩ | ⟨rfl, rfl⟩
    · rw [hout, if_neg hi, Nat.add_zero]
    · obtain ⟨hout, -⟩ := s.putBits_spec (s.entry idx).code htail
      simp [hout]
    · simp

/-! ### The bits a list of commands places (R137, R139) -/

/-- The bit step reads `ACC`, `BITPOS` and the output stream only. -/
theorem State.putBit_sameStream (s t : State) (b : Bool) (h : State.SameStream s t) :
    State.SameStream (s.putBit b) (t.putBit b) := by
  obtain ⟨hacc, hpos, hout⟩ := h
  unfold State.putBit
  rw [hacc, hpos]
  dsimp only
  split
  · exact ⟨rfl, rfl, by simp [hout]⟩
  · exact ⟨rfl, rfl, hout⟩

theorem State.putBits_sameStream (bits : List Bool) : ∀ s t : State, State.SameStream s t →
    State.SameStream (s.putBits bits) (t.putBits bits) := by
  induction bits with
  | nil => exact fun s t h => h
  | cons b bits ih => exact fun s t h => ih _ _ (s.putBit_sameStream t b h)

theorem State.SameStream.trans {s t u : State} (hst : State.SameStream s t) (htu : State.SameStream t u) :
    State.SameStream s u := by
  obtain ⟨hacc, hpos, hout⟩ := hst
  obtain ⟨hacc', hpos', hout'⟩ := htu
  exact ⟨hacc'.trans hacc, hpos'.trans hpos, hout'.trans hout⟩

/-- A command other than END that raises nothing leaves the stream as its code bits, placed one by one, leave it. -/
theorem exec_places_bits (i : Instr) (s t : State) (hi : i ≠ .endStream) (he : s.err = false)
    (h : exec i s = .next t) (ht : t.err = false) : State.SameStream (s.putBits (placedBits i s)) t := by
  rcases exec_stream_cases i s t he h with ⟨-, hsame, herr | hnone⟩ | ⟨idx, rfl, rfl⟩ | ⟨hend, -⟩
  · rw [ht] at herr
    cases herr
  · rwa [hnone]
  · exact ⟨rfl, rfl, rfl⟩
  · exact absurd hend hi

/-- The bits of a list of one more command: those its first command places, then those placed from the state it
answers. -/
theorem streamBits_cons_next (i : Instr) (is : List Instr) (s u : State) (h : exec i s = .next u) :
    streamBits (i :: is) s = placedBits i s ++ streamBits is u := by
  rw [streamBits, h]

theorem execAll_places_bits (is : List Instr) (t : State) (hi : ∀ i ∈ is, i ≠ .endStream) (ht : t.err = false) :
    ∀ s : State, execAll is s = .next t → State.SameStream (s.putBits (streamBits is s)) t := by
  induction is with
  | nil =>
    intro s h
    obtain rfl := Host.Outcome.next.inj h
    exact ⟨rfl, rfl, rfl⟩
  | cons i is ih =>
    intro s h
    obtain ⟨u, hu, hrest⟩ := execAll_cons_cases i is s t h
    have hfirst := exec_places_bits i s u (hi i (by simp)) (err_false_of_execAll (i :: is) s t h ht) hu
      (err_false_of_execAll is u t hrest ht)
    rw [streamBits_cons_next i is s u hu, State.putBits_append]
    exact (State.putBits_sameStream _ _ _ hfirst).trans (ih (fun x hx => hi x (by simp [hx])) u hrest)

/-! ### A list of commands and an END after it -/

theorem execAll_answers (is : List Instr) : ∀ s : State, ∃ t, execAll is s = .next t := by
  induction is with
  | nil => exact fun s => ⟨s, rfl⟩
  | cons i is ih =>
    intro s
    obtain ⟨u, hu, -⟩ := exec_withOutside i s [] none
    rw [execAll_cons_next i is s u hu]
    exact ih u

theorem execAll_append_next (is js : List Instr) (u : State) : ∀ s : State, execAll is s = .next u →
    execAll (is ++ js) s = execAll js u := by
  induction is with
  | nil =>
    intro s h
    obtain rfl := Host.Outcome.next.inj h
    rfl
  | cons i is ih =>
    intro s h
    obtain ⟨v, hv, hrest⟩ := execAll_cons_cases i is s u h
    rw [List.cons_append, execAll_cons_next i _ s v hv]
    exact ih v hrest

theorem execAll_keeps_params (is : List Instr) (t : State) : ∀ s : State, execAll is s = .next t →
    t.params = s.params := by
  induction is with
  | nil =>
    intro s h
    obtain rfl := Host.Outcome.next.inj h
    rfl
  | cons i is ih =>
    intro s h
    obtain ⟨u, hu, hrest⟩ := execAll_cons_cases i is s t h
    rw [ih u hrest, exec_keeps_params i s u hu]

/-- An END after commands that raise nothing closes the stream they leave. -/
theorem execAll_endStream (is : List Instr) (s u : State) (h : execAll is s = .next u) (hu : u.err = false) :
    execAll (is ++ [.endStream]) s = .next u.closeStream := by
  rw [execAll_append_next is _ u s h, execAll_cons_next _ _ u _ (exec_endStream_closes u hu), execAll]

/-! ### The items of a stream (R139) -/

theorem State.heldBits_of_bitpos_zero (s : State) (hb : s.bitpos = 0) : s.heldBits = [] := by
  rw [← List.length_eq_zero_iff, s.heldBits_length, hb]
  rfl

/-- From the start of a stream the bit step emits the bits' whole bytes and counts the rest. -/
theorem State.putBits_of_bitpos_zero (s : State) (bits : List Bool) (htail : s.AccTailZero) (hb : s.bitpos = 0) :
    (s.putBits bits).out = s.out ++ dataBytes bits ∧ (s.putBits bits).bitpos.toNat = bits.length % 8 := by
  obtain ⟨hout, hpos, -⟩ := s.putBits_spec bits htail
  rw [s.heldBits_of_bitpos_zero hb] at hout
  rw [hb] at hpos
  exact ⟨hout, by simpa using hpos⟩

/-- From the start of a stream the accumulator holds the bits after the last whole byte, zeros below them. -/
theorem State.acc_putBits_of_bitpos_zero (s : State) (bits : List Bool) (htail : s.AccTailZero) (hb : s.bitpos = 0) :
    (s.putBits bits).acc = byteAt bits (bits.length / 8) := by
  obtain ⟨-, -, hheld, hnewtail, -⟩ := s.putBits_spec bits htail
  have hrest : (s.putBits bits).heldBits = bits.drop (8 * (bits.length / 8)) := by
    simpa [s.heldBits_of_bitpos_zero hb, hb] using hheld
  rw [(s.putBits bits).acc_eq_byteAt hnewtail, hrest]
  refine byteAt_congr _ _ _ _ fun j _ => ?_
  simp [List.getD, List.getElem?_drop]

/-- Bits placed from the start of a stream, and END after them, emit the items R139 gives those bits. -/
theorem State.closeStream_putBits_out (s : State) (bits : List Bool) (htail : s.AccTailZero) (hb : s.bitpos = 0) :
    (s.putBits bits).closeStream.out = s.out ++ streamItems s.params.flushPartial bits := by
  obtain ⟨hout, hpos⟩ := s.putBits_of_bitpos_zero bits htail hb
  have hacc := s.acc_putBits_of_bitpos_zero bits htail hb
  have hempty : (s.putBits bits).bitpos ≠ 0 ↔ bits.length % 8 ≠ 0 := by
    rw [← hpos, ne_eq, ne_eq, BitVec.toNat_eq]
    rfl
  simp only [State.closeStream_out, State.endItems, State.putBits_params, hout, hpos, hacc, hempty, streamItems,
    partialByte, controlItem, List.append_assoc]

/-- What END appends depends on the stream's state and the parameters only. -/
theorem State.closeStream_out_congr (s t : State) (h : State.SameStream s t) (hp : t.params = s.params) :
    t.closeStream.out = s.closeStream.out := by
  obtain ⟨hacc, hpos, hout⟩ := h
  simp only [State.closeStream_out, State.endItems, hacc, hpos, hout, hp]

/-- Settles O45: by induction the commands leave the stream as their code bits placed one by one leave it, whatever table
commands stand between, and END then emits the last items of those bits. -/
theorem streamLaw : Obligations.StreamLaw := by
  intro s is hinv he hb hi
  obtain ⟨u, hu⟩ := execAll_answers is s
  cases herr : u.err with
  | true =>
    refine ⟨u, ?_, fun hno => ?_⟩
    · rw [execAll_append_next is _ u s hu, execAll_error _ u herr]
    · rw [herr] at hno
      cases hno
  | false =>
    have hsame := execAll_places_bits is u hi herr s hu
    have hparams : u.params = (s.putBits (streamBits is s)).params := by
      rw [execAll_keeps_params is u s hu, s.putBits_params]
    refine ⟨_, execAll_endStream is s u hu herr, fun _ => ⟨?_, rfl, rfl⟩⟩
    rw [State.closeStream_out_congr _ u hsame hparams]
    exact s.closeStream_putBits_out _ hinv.accTail hb

/-! ### The document's packer (R146) -/

/-- With R23 the position `BITPOS` of the accumulator is 0, so that setting it adds its weight. -/
theorem State.toNat_acc_setBit (s : State) (b : Bool) (htail : s.AccTailZero) :
    (if b then s.acc ||| (0x80#8 >>> s.bitpos.toNat) else s.acc).toNat =
      if b then s.acc.toNat + 2 ^ (7 - s.bitpos.toNat) else s.acc.toNat := by
  have hp := s.bitpos.isLt
  have hweight : (0x80#8 >>> s.bitpos.toNat).toNat = 2 ^ (7 - s.bitpos.toNat) := by
    rw [BitVec.toNat_ushiftRight, Nat.shiftRight_eq_div_pow, ← Nat.pow_div (by omega) (by omega)]
    rfl
  have hclear : s.acc &&& (0x80#8 >>> s.bitpos.toNat) = 0#8 := by
    rw [show 0x80#8 = 0xFF#8 &&& 0x80#8 from rfl, BitVec.ushiftRight_and_distrib, ← BitVec.and_assoc, htail,
      BitVec.zero_and]
  cases b with
  | false => rfl
  | true =>
    rw [if_pos rfl, if_pos rfl, ← BitVec.add_eq_or_of_and_eq_zero _ _ hclear, BitVec.toNat_add_of_and_eq_zero hclear,
      hweight]

/-- One bit step is one character of the document's packer: the byte it completes, if any, is emitted, and the packer goes
on from the accumulator and counter it leaves. -/
theorem State.putBit_documentPack (s : State) (b : Bool) (bits : List Bool) (htail : s.AccTailZero) :
    (s.putBit b).out.map (fun x => x.data.toNat) ++
        documentPack (s.putBit b).acc.toNat (s.putBit b).bitpos.toNat bits =
      s.out.map (fun x => x.data.toNat) ++ documentPack s.acc.toNat s.bitpos.toNat (b :: bits) := by
  have hp := s.bitpos.isLt
  have hacc := s.toNat_acc_setBit b htail
  unfold State.putBit
  rw [documentPack]
  dsimp only
  split
  next h8 => simp [hacc]
  next h8 =>
    have hpos : (BitVec.ofNat 3 (s.bitpos.toNat + 1)).toNat = s.bitpos.toNat + 1 := by
      rw [BitVec.toNat_ofNat, Nat.mod_eq_of_lt (by omega)]
    rw [State.setAcc_out, State.setAcc_acc, State.setAcc_bitpos, hacc, hpos]

/-- The bit step refines the document's packer: from any accumulator and counter, the bytes emitted for some bits and the
count left are the packer's. -/
theorem State.putBits_documentPack (bits : List Bool) : ∀ s : State, s.AccTailZero →
    (s.putBits bits).out.map (fun x => x.data.toNat) ++ [(s.putBits bits).bitpos.toNat] =
      s.out.map (fun x => x.data.toNat) ++ documentPack s.acc.toNat s.bitpos.toNat bits := by
  induction bits with
  | nil => exact fun s _ => rfl
  | cons b bits ih =>
    intro s htail
    obtain ⟨-, -, -, hnewtail, -⟩ := s.putBits_spec [b] htail
    rw [← s.putBit_documentPack b bits htail]
    exact ih (s.putBit b) hnewtail

/-- From the start of a stream the whole bytes of some bits, then the count of the rest, are the document's output. -/
theorem dataBytes_documentPack (bits : List Bool) :
    (dataBytes bits ++ [controlItem bits]).map (fun x => x.data.toNat) = documentPack 0 0 bits := by
  have htail : State.reset.AccTailZero := State.reset.accTailZero_of_acc_zero rfl
  obtain ⟨hout, hpos⟩ := State.reset.putBits_of_bitpos_zero bits htail rfl
  have hpack := State.reset.putBits_documentPack bits htail
  have hcount : (controlItem bits).data.toNat = bits.length % 8 := by
    rw [controlItem, BitVec.toNat_ofNat]
    omega
  rw [hout, hpos] at hpack
  rw [List.map_append, List.map_singleton, hcount]
  exact hpack

/-- The SYMs of indices whose entries are valid place the entries' codes in order, for no SYM writes the table. -/
theorem execAll_symsCommands (is : List Nat) : ∀ s : State, s.err = false →
    (∀ i ∈ is, i < s.params.capacity ∧ (s.entry i).valid = true) →
    execAll (symsCommands is) s = .next (s.putBits (is.flatMap fun i => (s.entry i).code)) := by
  induction is with
  | nil => exact fun s _ _ => rfl
  | cons i is ih =>
    intro s he hvalid
    obtain ⟨hi, hv⟩ := hvalid i (by simp)
    have hrest := ih (s.putBits (s.entry i).code) (by rw [s.putBits_err, he]) fun j hj => by
      simpa using hvalid j (by simp [hj])
    simp only [State.putBits_entry, ← State.putBits_append] at hrest
    rw [symsCommands, List.map_cons, execAll_cons_next _ _ s _ (exec_sym_valid s i he hi hv)]
    exact hrest

/-- Settles O47: the SYMs place the codes, END closes the stream without a partial byte, and its items are those of the
document's packer, which the bit step refines. -/
theorem streamMatchesDocumentPacker : Obligations.StreamMatchesDocumentPacker := by
  intro s is hinv he hb hflush hvalid
  have hsyms := execAll_symsCommands is s he hvalid
  generalize is.flatMap (fun i => (s.entry i).code) = bits at hsyms ⊢
  have herr : (s.putBits bits).err = false := by rw [s.putBits_err, he]
  refine ⟨_, dataBytes bits, controlItem bits, execAll_endStream _ s _ hsyms herr, herr, ?_,
    dataBytes_documentPack bits, last_of_mem_dataBytes bits, rfl⟩
  rw [s.closeStream_putBits_out bits hinv.accTail hb, hflush]
  simp [streamItems, partialByte]

end Sys2Proof.Machine

/-! PROOF. Errors and reset (60_exceptions.md R163, R166, R168): what a command can do to ERR and CAUSE, the edges of the error state, and the state a reset edge leaves. -/

namespace Sys2Proof.Machine

/-! ### What a command can do to ERR and CAUSE (R163) -/

/-- A command leaves ERR and CAUSE, or it is run with `ERR = 0` and makes the error entry, which is all it does. -/
theorem exec_status_cases (i : Instr) (s t : State) (h : exec i s = .next t) :
    State.SameStatus s t ∨ (s.err = false ∧ ∃ c, t = s.raise c) := by
  cases he : s.err with
  | true =>
    rw [exec_error i s he] at h
    obtain rfl := Host.Outcome.next.inj h
    exact .inl ⟨rfl, rfl⟩
  | false =>
    cases i with
    | tblClr =>
      rw [exec_tblClr s he] at h
      obtain rfl := Host.Outcome.next.inj h
      exact .inl ⟨rfl, rfl⟩
    | tblBegin idx len =>
      rw [exec_tblBegin s idx len he] at h
      obtain rfl := Host.Outcome.next.inj h
      obtain ⟨-, hstatus, -⟩ := s.beginLoad_frame idx len
      split
      · split
        · exact .inl hstatus
        · exact .inr ⟨rfl, _, rfl⟩
      · exact .inr ⟨rfl, _, rfl⟩
    | tblData data =>
      rw [exec_tblData s data he] at h
      obtain rfl := Host.Outcome.next.inj h
      obtain ⟨-, hstatus, -, -⟩ := s.loadData_frame data
      split
      · exact .inl hstatus
      · exact .inr ⟨rfl, _, rfl⟩
    | sym idx =>
      rcases exec_sym_cases s t idx he h with rfl | ⟨c, -, rfl⟩
      · left
        rw [s.putBits_frame]
        exact ⟨rfl, rfl⟩
      · exact .inr ⟨rfl, c, rfl⟩
    | endStream =>
      rw [exec_endStream_closes s he] at h
      obtain rfl := Host.Outcome.next.inj h
      exact .inl ⟨rfl, rfl⟩

/-- A command that turns ERR from 0 to 1 does the error entry and nothing else. -/
theorem exec_raises_of_err (i : Instr) (s t : State) (he : s.err = false) (h : exec i s = .next t)
    (ht : t.err = true) : ∃ c, t = s.raise c := by
  rcases exec_status_cases i s t h with ⟨herr, -⟩ | ⟨-, hraise⟩
  · rw [herr, he] at ht
    cases ht
  · exact hraise

/-- Settles O12: the error entry writes ERR and CAUSE only, and the item on offer is read from neither. -/
theorem errorsArePrecise : Obligations.ErrorsArePrecise := by
  intro i s t he h ht
  obtain ⟨c, rfl⟩ := exec_raises_of_err i s t he h ht
  exact ⟨⟨c, rfl, rfl⟩, rfl, rfl⟩

/-! ### The error state (R165, R166) -/

/-- In the error state an edge without reset makes its transfers and nothing else, whether it brings a word or not. -/
theorem step_edge_error (s : State) (e : PortEdge) (rest : List PortEdge) (hp : s.port = e :: rest)
    (hr : e.rst = none) (he : s.err = true) : step s = .next (s.afterDelivery e rest) := by
  rw [step_edge s e rest hp hr]
  cases e.cmd with
  | none => rfl
  | some w => exact runWord_error w (s.afterDelivery e rest) he

/-- Settles O15: waiting and an edge without reset keep ERR and CAUSE; a reset edge clears ERR. -/
theorem onlyResetLeavesErrorState : Obligations.OnlyResetLeavesErrorState := by
  intro s he
  cases hp : s.port with
  | nil => exact ⟨s, step_waiting s hp, by simp [he], fun _ => rfl⟩
  | cons e rest =>
    cases hr : e.rst with
    | some d => exact ⟨_, step_reset s e rest d hp hr, by simp [hr], by simp⟩
    | none =>
      have herr : (s.afterDelivery e rest).err = true := he
      exact ⟨_, step_edge_error s e rest hp hr he, by simp [herr, hr], fun _ => rfl⟩

/-! ### Reset (R168, 70_reset_and_hazards.md R190) -/

/-- A reset leaves no entry valid, whatever the draw. -/
@[simp] theorem State.applyReset_valid (s : State) (d : ResetDraw) (j : Nat) :
    ((s.applyReset d).entry j).valid = false := by
  obtain ⟨-, -, hvalid⟩ := CodeTable.ofDraw_legal s.params.capacity d.stale
  exact hvalid j

/-- A step that turns ERR from 0 to 1 appends nothing to the output stream. -/
theorem step_raising_keeps_out (s t : State) (h : step s = .next t) (he : s.err = false) (ht : t.err = true) :
    t.out = s.out := by
  rcases step_cases s t h with ⟨-, rfl⟩ | ⟨e, rest, d, -, -, rfl⟩ | ⟨e, rest, -, -, hedge⟩
  · rfl
  · cases ht
  · rcases hedge with rfl | ⟨-, c, rfl⟩ | ⟨-, w, i, -, -, hexec⟩
    · rfl
    · rfl
    · obtain ⟨c, rfl⟩ := exec_raises_of_err i (s.afterDelivery e rest) t he hexec ht
      rfl

/-- Settles O18: reset reads of the state before it the parameters and the edges to come only, and the error entry
does not write the output stream. -/
theorem resetWinsOverTransfers : Obligations.ResetWinsOverTransfers := by
  refine ⟨fun s rest d cmd cmd' ready ready' err' => ?_, step_raising_keeps_out⟩
  exact ⟨_, step_reset _ _ rest d rfl rfl, step_reset _ _ rest d rfl rfl, rfl, rfl, State.applyReset_valid _ d, rfl, rfl,
    rfl, rfl, rfl⟩

end Sys2Proof.Machine

/-! PROOF. Encoding round trips (30_encoding.md R71 to R79): every well-formed command decodes from its word (`Obligations.DecodeEncodeRoundTrip`), every command word is its command's encoding (`Obligations.CommandWordsAreEncodings`), and the assembler's words. -/

namespace Sys2Proof

open Sys2Proof.Machine

/-! ### From command to word and back -/

theorem wellFormed_tblBegin_iff (idx len : Nat) :
    (Instr.tblBegin idx len).wellFormed = true ↔ idx ≤ 1023 ∧ len ≤ 1023 := by
  simp [Instr.wellFormed, indexFits, lengthFits]

theorem wellFormed_sym_iff (idx : Nat) : (Instr.sym idx).wellFormed = true ↔ idx ≤ 1023 := by
  simp [Instr.wellFormed, indexFits]

/-- Settles O1: the word of a command, as a number, is the one the decoder's law of that command reads. -/
theorem decodeEncodeRoundTrip : Obligations.DecodeEncodeRoundTrip := by
  intro i hi
  cases i with
  | tblClr => exact decode_of_mask_test _ .tblClr rfl
  | tblBegin idx len =>
    obtain ⟨hidx, hlen⟩ := (wellFormed_tblBegin_iff idx len).1 hi
    exact decode_tblBegin_of_toNat _ idx len hidx hlen (encode_tblBegin_toNat idx len hidx hlen)
  | tblData data => exact decode_tblData_of_toNat _ data (encode_tblData_toNat data)
  | sym idx =>
    have hidx := (wellFormed_sym_iff idx).1 hi
    exact decode_sym_of_toNat _ idx hidx (encode_sym_toNat idx hidx)
  | endStream => exact decode_of_mask_test _ .endStream rfl

/-- The fields of a word fit the fields of the command it decodes to. -/
theorem wellFormed_withOperands (op : Opcode) (w : Word) : (op.withOperands w).wellFormed = true := by
  have hidx : indexField w ≤ 1023 := by rw [indexField_eq]; omega
  have hlen : lengthField w ≤ 1023 := by rw [lengthField_eq]; omega
  cases op with
  | tblClr => rfl
  | tblBegin => exact (wellFormed_tblBegin_iff _ _).2 ⟨hidx, hlen⟩
  | tblData => rfl
  | sym => exact (wellFormed_sym_iff _).2 hidx
  | endStream => rfl

/-- The encoding of a word's operands is its opcode's pattern with the bits the mask leaves free (R72). -/
theorem encode_withOperands (op : Opcode) (w : Word) :
    encode (op.withOperands w) = op.pattern ||| (w &&& ~~~op.mask) := by
  cases op with
  | tblClr => exact (congrArg (Opcode.tblClr.pattern ||| ·) BitVec.and_zero).symm
  | tblBegin =>
    apply BitVec.eq_of_getLsbD_eq
    intro i hi
    simp only [encode, Opcode.withOperands, Opcode.pattern, Opcode.mask, indexField, lengthField, BitVec.ofNat_toNat]
    interval_cases i <;> simp
  | tblData =>
    apply BitVec.eq_of_getLsbD_eq
    intro i hi
    simp only [encode, Opcode.withOperands, Opcode.pattern, Opcode.mask, dataField]
    interval_cases i <;> simp
  | sym =>
    apply BitVec.eq_of_getLsbD_eq
    intro i hi
    simp only [encode, Opcode.withOperands, Opcode.pattern, Opcode.mask, indexField, BitVec.ofNat_toNat]
    interval_cases i <;> simp
  | endStream => exact (congrArg (Opcode.endStream.pattern ||| ·) BitVec.and_zero).symm

/-- A word that passes a row's mask test is the encoding of its operands: mask and fields are all the bits. -/
theorem encode_of_mask_test (w : Word) (op : Opcode) (h : w &&& op.mask = op.pattern) :
    encode (op.withOperands w) = w := by
  rw [encode_withOperands, ← h, ← BitVec.and_or_distrib_left, BitVec.or_not_self, BitVec.and_allOnes]

/-- Settles O2: a decoded word has passed its row's mask test. -/
theorem commandWordsAreEncodings : Obligations.CommandWordsAreEncodings := by
  intro w i h
  obtain ⟨op, -, hmask, rfl⟩ := decode_command_cases w i h
  exact ⟨wellFormed_withOperands op w, encode_of_mask_test w op hmask⟩

/-- Settles O5: the decoder evaluated at each of the seven words. -/
theorem sampleWordsDecode : Obligations.SampleWordsDecode := by
  unfold Obligations.SampleWordsDecode
  decide

/-! ### The assembler (R79) -/

/-- The word of a command that has an encoding, by its number. -/
theorem encode_eq_ofNat (i : Instr) (n : Nat) (h : (encode i).toNat = n) : encode i = BitVec.ofNat 32 n := by
  rw [← h, BitVec.ofNat_toNat, BitVec.setWidth_eq]

/-- One command assembles to its word if it is well-formed and is refused otherwise. -/
theorem ifWellFormed_words (i : Instr) :
    (ifWellFormed [i]).map (List.map encode) = if i.wellFormed = true then some [encode i] else none := by
  rw [ifWellFormed, List.all_cons, List.all_nil, Bool.and_true]
  split <;> rfl

/-- Settles O6: an operand in its field assembles to the word of R79's table, and one outside is refused. -/
theorem assemblerRefusesWideOperands : Obligations.AssemblerRefusesWideOperands := by
  refine ⟨fun idx len => ?_, fun data => ?_, fun idx => ?_, rfl, rfl⟩
  · rw [assembleWords, assemble, ifWellFormed_words]
    simp only [wellFormed_tblBegin_iff]
    split
    next h => rw [encode_eq_ofNat _ _ (encode_tblBegin_toNat idx len h.1 h.2)]
    next => rfl
  · rw [assembleWords, assemble]
    split
    next h =>
      have hdata : (BitVec.ofNat 16 data).toNat = data := by rw [BitVec.toNat_ofNat, Nat.mod_eq_of_lt (by omega)]
      rw [Option.map_some, List.map_singleton, encode_eq_ofNat _ _ (encode_tblData_toNat _), hdata]
    next => rfl
  · rw [assembleWords, assemble, ifWellFormed_words]
    simp only [wellFormed_sym_iff]
    split
    next h => rw [encode_eq_ofNat _ _ (encode_sym_toNat idx h)]
    next => rfl

end Sys2Proof

/-! PROOF. Steps, errors and reset (20_memory.md R58, 60_exceptions.md R160 to R174, 70_reset_and_hazards.md R190): a transferred word as the command it encodes, the cause a word reports, and what a step can do to ERR and CAUSE. -/

namespace Sys2Proof.Machine

/-! ### Every step answers -/

theorem exec_answers (i : Instr) (s : State) : ∃ t, exec i s = .next t := by
  obtain ⟨t, ht, -⟩ := exec_withOutside i s [] none
  exact ⟨t, ht⟩

theorem runWord_answers (w : Word) (s : State) : ∃ t, runWord w s = .next t := by
  cases he : s.err with
  | true => exact ⟨s, runWord_error w s he⟩
  | false =>
    rw [runWord_running w s he]
    cases decode w with
    | command i => exact exec_answers i s
    | illegalOpcode => exact ⟨_, rfl⟩
    | reservedBits => exact ⟨_, rfl⟩

theorem step_answers (s : State) : ∃ t, step s = .next t := by
  cases hp : s.port with
  | nil => exact ⟨s, step_waiting s hp⟩
  | cons e rest =>
    cases hr : e.rst with
    | some d => exact ⟨_, step_reset s e rest d hp hr⟩
    | none =>
      rw [step_edge s e rest hp hr]
      cases e.cmd with
      | none => exact ⟨_, rfl⟩
      | some w => exact runWord_answers w _

/-- Settles O9: the step answers at each kind of edge, and so does each command. -/
theorem everyStepAnswersNext : Obligations.EveryStepAnswersNext :=
  ⟨step_answers, exec_answers⟩

/-- Settles O20: with no edge listed the step waits. -/
theorem waitingHoldsAllState : Obligations.WaitingHoldsAllState := step_waiting

/-! ### A transferred word -/

theorem step_word (s : State) (e : PortEdge) (rest : List PortEdge) (w : Word) (hp : s.port = e :: rest)
    (hr : e.rst = none) (hc : e.cmd = some w) : step s = runWord w (s.afterDelivery e rest) := by
  rw [step_edge s e rest hp hr, hc]

/-- Settles O7: the edge's transfers are made, then the word is decoded. -/
theorem stepRunsDecodedCommand : Obligations.StepRunsDecodedCommand := by
  intro s e rest w i hp hr hc he hd
  rw [step_word s e rest w hp hr hc, runWord_running w (s.afterDelivery e rest) he, hd]

/-- Settles O10: the decoder's outcome for such a word is the one whose error the step raises. -/
theorem undecodableWordsRaise : Obligations.UndecodableWordsRaise := by
  intro s e rest w hp hr hc he
  obtain ⟨-, hreserved, hillegal⟩ := everyWordIsOneOfThreeKinds w
  have hstep : step s = _ := step_word s e rest w hp hr hc
  rw [runWord_running w (s.afterDelivery e rest) he] at hstep
  refine ⟨fun hop => ?_, fun hop hbits => ?_⟩
  · rw [hstep, hillegal.2 hop]
    rfl
  · rw [hstep, hreserved.2 ⟨hop, hbits⟩]
    rfl

/-- Settles O14: the step discards the word after its edge's transfers, and every command checks ERR itself. -/
theorem errorStateDiscardsWords : Obligations.ErrorStateDiscardsWords := by
  intro s e rest w hp hr _ he
  exact ⟨step_edge_error s e rest hp hr he, fun i => exec_error i s he⟩

/-! ### Commands transferred one after another (R58) -/

/-- The word of a well-formed command runs that command, in the error state too. -/
theorem runWord_encode (i : Instr) (s : State) (hi : i.wellFormed = true) : runWord (encode i) s = exec i s := by
  cases he : s.err with
  | true => rw [runWord_error _ s he, exec_error i s he]
  | false => rw [runWord_running _ s he, decodeEncodeRoundTrip i hi]

/-- The edge that transfers a command's word, and nothing else, executes the command and records its word. -/
theorem step_ofWord_encode (i : Instr) (s t : State) (rest : List PortEdge) (hi : i.wellFormed = true)
    (h : exec i s = .next t) :
    step { s with port := PortEdge.ofWord (encode i) :: rest } =
      .next { t with port := rest, current := some (encode i) } := by
  obtain ⟨u, hu, -, -, hu'⟩ := exec_withOutside i s rest (some (encode i))
  obtain rfl := Host.Outcome.next.inj (h.symm.trans hu)
  rw [step_word _ _ rest (encode i) rfl rfl rfl, runWord_encode i _ hi, ← hu']
  simp [State.afterDelivery, PortEdge.ofWord]

/-- The last word of a list of one more command: the last one of the rest, or else the first. -/
theorem lastWord_cons (i : Instr) (is : List Instr) (c : Option Word) :
    ((i :: is).getLast?.map encode).or c = (is.getLast?.map encode).or (some (encode i)) := by
  rw [List.getLast?_cons]
  cases is.getLast? <;> rfl

/-- Settles O8, by induction on the commands: each edge executes its command and leaves the edges after it. -/
theorem transferredCommandsRunInOrder : Obligations.TransferredCommandsRunInOrder := by
  intro is
  induction is with
  | nil => exact fun s rest _ => rfl
  | cons i is ih =>
    intro s rest hwell
    obtain ⟨t, ht, -, -, ht'⟩ := exec_withOutside i s rest (((i :: is).getLast?.map encode).or s.current)
    have hstep := step_ofWord_encode i s t (commandEdges is ++ rest) (hwell i (by simp)) ht
    have hrest := ih { t with current := some (encode i) } rest fun x hx => hwell x (by simp [hx])
    rw [execAll_cons_next _ _ _ _ ht', List.length_cons, lastWord_cons]
    exact (run_succ_next _ _ _ hstep).trans hrest

/-! ### The cause a word reports (R160, R162) -/

/-- The cause a command raises while `ERR = 0`, its checks in R162's order. -/
def commandError : Instr → State → Option ErrorCause
  | .tblClr, _ => none
  | .tblBegin idx len, s =>
    if s.params.capacity ≤ idx then some .indexRange
    else if s.params.maxLen < len then some .lengthRange else none
  | .tblData _, s => if s.ldActive then none else some .noLoad
  | .sym idx, s =>
    if s.params.capacity ≤ idx then some .indexRange
    else if (s.entry idx).valid then none else some .undefinedCode
  | .endStream, _ => none

/-- With ERR = 0 a command raises the cause its checks give, or leaves ERR and CAUSE where they give none. -/
theorem exec_commandError_cases (i : Instr) (s t : State) (he : s.err = false) (h : exec i s = .next t) :
    (∃ c, commandError i s = some c ∧ t = s.raise c) ∨ (commandError i s = none ∧ State.SameStatus s t) := by
  cases i with
  | tblClr =>
    rw [exec_tblClr s he] at h
    obtain rfl := Host.Outcome.next.inj h
    exact .inr ⟨rfl, rfl, rfl⟩
  | tblBegin idx len =>
    obtain ⟨-, hstatus, -⟩ := s.beginLoad_frame idx len
    rw [exec_tblBegin s idx len he] at h
    obtain rfl := Host.Outcome.next.inj h
    simp only [commandError, ← Nat.not_le, ite_not]
    split
    · exact .inl ⟨_, rfl, rfl⟩
    · split
      · exact .inr ⟨rfl, hstatus⟩
      · exact .inl ⟨_, rfl, rfl⟩
  | tblData data =>
    obtain ⟨-, hstatus, -, -⟩ := s.loadData_frame data
    rw [exec_tblData s data he] at h
    obtain rfl := Host.Outcome.next.inj h
    rw [commandError]
    split
    · exact .inr ⟨rfl, hstatus⟩
    · exact .inl ⟨_, rfl, rfl⟩
  | sym idx =>
    rw [exec_sym s idx he] at h
    obtain rfl := Host.Outcome.next.inj h
    simp only [commandError, ← Nat.not_lt, ite_not]
    split
    · split
      · refine .inr ⟨rfl, ?_⟩
        rw [s.putBits_frame]
        exact ⟨rfl, rfl⟩
      · exact .inl ⟨_, rfl, rfl⟩
    · exact .inl ⟨_, rfl, rfl⟩
  | endStream =>
    rw [exec_endStream_closes s he] at h
    obtain rfl := Host.Outcome.next.inj h
    exact .inr ⟨rfl, rfl, rfl⟩

theorem errorOf_of_illegal (w : Word) (s : State) (h : decode w = .illegalOpcode) :
    errorOf w s = some .illegalOpcode := by
  obtain ⟨-, -, hillegal⟩ := everyWordIsOneOfThreeKinds w
  exact if_pos (hillegal.1 h)

theorem errorOf_of_reserved (w : Word) (s : State) (h : decode w = .reservedBits) :
    errorOf w s = some .reservedBits := by
  obtain ⟨-, hreserved, -⟩ := everyWordIsOneOfThreeKinds w
  obtain ⟨hop, hbits⟩ := hreserved.1 h
  exact (if_neg hop).trans (if_pos hbits)

/-- R162's list, written from the word's bits, gives a word that decodes to a command the cause of the command's own
checks: both decoding causes come first and do not apply. -/
theorem errorOf_of_command (w : Word) (i : Instr) (s : State) (h : decode w = .command i) :
    errorOf w s = commandError i s := by
  obtain ⟨op, -, hmask, rfl⟩ := decode_command_cases w i h
  obtain ⟨hfield, hbits⟩ := (mask_test_iff w op).1 hmask
  rw [opcodeField_eq] at hfield hbits
  have hlegal : opcodeField op.pattern ∉ illegalOpcodes := by cases op <;> decide
  unfold errorOf
  dsimp only
  rw [if_neg (not_not.2 hbits), hfield, if_neg hlegal]
  cases op with
  | tblClr => rfl
  | tblBegin =>
    rw [show opcodeField Opcode.tblBegin.pattern = 2 from rfl, if_pos rfl, Opcode.withOperands, commandError,
      indexField_eq, lengthField_eq]
  | tblData => rfl
  | sym =>
    rw [show opcodeField Opcode.sym.pattern = 8 from rfl, if_neg (by decide), if_neg (by decide), if_pos rfl,
      Opcode.withOperands, commandError, indexField_eq]
  | endStream => rfl

/-- A word transferred with `ERR = 0` raises the first cause of R162's list that applies to it, or leaves ERR and CAUSE
where none does. -/
theorem runWord_errorOf_cases (w : Word) (s t : State) (he : s.err = false) (h : runWord w s = .next t) :
    (∃ c, errorOf w s = some c ∧ t = s.raise c) ∨ (errorOf w s = none ∧ State.SameStatus s t) := by
  rw [runWord_running w s he] at h
  cases hd : decode w with
  | command i =>
    rw [hd] at h
    rw [errorOf_of_command w i s hd]
    exact exec_commandError_cases i s t he h
  | illegalOpcode =>
    rw [hd] at h
    exact .inl ⟨_, errorOf_of_illegal w s hd, (Host.Outcome.next.inj h).symm⟩
  | reservedBits =>
    rw [hd] at h
    exact .inl ⟨_, errorOf_of_reserved w s hd, (Host.Outcome.next.inj h).symm⟩

/-- Settles O11: the edge changes nothing that R162's list reads, and the word raises the cause that list gives. -/
theorem firstApplicableCauseReported : Obligations.FirstApplicableCauseReported := by
  intro s w rest he hp
  have hreads : errorOf w (s.afterDelivery (PortEdge.ofWord w) rest) = errorOf w s := rfl
  obtain ⟨t, ht⟩ := runWord_answers w (s.afterDelivery (PortEdge.ofWord w) rest)
  refine ⟨t, (step_word s _ rest w hp rfl rfl).trans ht, ?_⟩
  rcases runWord_errorOf_cases w (s.afterDelivery (PortEdge.ofWord w) rest) t he ht with
    ⟨c, hc, rfl⟩ | ⟨hnone, herr, hcause⟩
  · rw [← hreads, hc]
    refine ⟨fun c' hc' => ?_, fun hno => by cases hno⟩
    obtain rfl := Option.some.inj hc'
    rfl
  · rw [← hreads, hnone]
    exact ⟨fun c hc => (by cases hc), fun _ => ⟨herr.trans he, hcause⟩⟩

/-- With this hardware's parameters every operand that fits its field is in range (R160). -/
theorem commandError_hardware (i : Instr) (s : State) (c : ErrorCause) (hp : s.params = Params.hardware)
    (hi : i.wellFormed = true) (h : commandError i s = some c) :
    (c = .noLoad ∧ (∃ d, i = .tblData d) ∧ s.ldActive = false) ∨
    (c = .undefinedCode ∧ ∃ idx, i = .sym idx ∧ (s.entry idx).valid = false) := by
  have hcap : s.params.capacity = 1024 := by rw [hp]; rfl
  have hmax : s.params.maxLen = 1023 := by rw [hp]; rfl
  cases i with
  | tblClr => cases h
  | tblBegin idx len =>
    obtain ⟨hidx, hlen⟩ := (wellFormed_tblBegin_iff idx len).1 hi
    rw [commandError, if_neg (by omega), if_neg (by omega)] at h
    cases h
  | tblData data =>
    rw [commandError] at h
    split at h
    next => cases h
    next ha => exact .inl ⟨(Option.some.inj h).symm, ⟨data, rfl⟩, Bool.eq_false_of_not_eq_true ha⟩
  | sym idx =>
    have hidx := (wellFormed_sym_iff idx).1 hi
    rw [commandError, if_neg (by omega)] at h
    split at h
    next => cases h
    next hv => exact .inr ⟨(Option.some.inj h).symm, idx, rfl, Bool.eq_false_of_not_eq_true hv⟩
  | endStream => cases h

/-- Settles O13: an error is one of the command's own causes, and the range checks pass. -/
theorem hardwareRaisesNoRangeError : Obligations.HardwareRaisesNoRangeError := by
  intro i s t hp hi he h ht
  rcases exec_commandError_cases i s t he h with ⟨c, hc, rfl⟩ | ⟨-, herr, -⟩
  · rcases commandError_hardware i s c hp hi hc with ⟨rfl, hdata, ha⟩ | ⟨rfl, hsym⟩
    · exact .inl ⟨rfl, hdata, ha⟩
    · exact .inr ⟨rfl, hsym⟩
  · rw [herr, he] at ht
    cases ht

/-! ### ERR and CAUSE (10_state.md R26, R28) -/

/-- Everything a step can do to ERR and CAUSE: leave both, enter the error state, or reset both. -/
theorem step_status_cases (s t : State) (h : step s = .next t) :
    State.SameStatus s t ∨
      (s.err = false ∧ t.err = true ∧ ∃ c : ErrorCause, t.cause = c.code) ∨
      ((∃ e rest, s.port = e :: rest ∧ e.rst.isSome = true) ∧ t.err = false ∧ t.cause = 0) := by
  rcases step_cases s t h with ⟨-, rfl⟩ | ⟨e, rest, d, hp, hr, rfl⟩ | ⟨e, rest, -, -, hedge⟩
  · exact .inl ⟨rfl, rfl⟩
  · exact .inr (.inr ⟨⟨e, rest, hp, by rw [hr]; rfl⟩, rfl, rfl⟩)
  · rcases hedge with rfl | ⟨he, c, rfl⟩ | ⟨he, w, i, -, -, hexec⟩
    · exact .inl ⟨rfl, rfl⟩
    · exact .inr (.inl ⟨he, rfl, c, rfl⟩)
    · rcases exec_status_cases i _ t hexec with hsame | ⟨-, c, rfl⟩
      · exact .inl hsame
      · exact .inr (.inl ⟨he, rfl, c, rfl⟩)

theorem ErrorCause.code_legal (c : ErrorCause) : c.code ≠ 0 ∧ c.code ≠ 7 := by
  cases c <;> decide

/-- Settles O16: the cases of a step, and the bits of STATUS by cases on ERR. -/
theorem statusWrittenOnlyByErrorOrReset : Obligations.StatusWrittenOnlyByErrorOrReset := by
  intro s t h
  refine ⟨step_status_cases s t h, ?_, ?_, ErrorCause.code_legal⟩
  · rw [State.status, BitVec.getLsbD_append]
    simp
  · rw [State.status, BitVec.setWidth_append_eq_right]

/-! ### Reset (70_reset_and_hazards.md R190, R192) -/

/-- Settles O17: `rst = 1` shows on the pins, and the edge leaves the reset state of its draw. -/
theorem resetEdgeResetsEverything : Obligations.ResetEdgeResetsEverything := by
  intro s e rest d hp hr
  have hrst : s.resetAsserted = true := by simp [State.resetAsserted, hp, hr]
  obtain ⟨hready, hout⟩ := s.pins_reset hrst
  have hnone : (State.applyReset { s with port := rest } d).pins.outValid = false := by
    simp [Pins.outValid, State.pins, State.outItem]
  exact ⟨hready, by rw [Pins.outValid, hout]; rfl, _, step_reset s e rest d hp hr, rfl, rfl, State.applyReset_valid _ d,
    rfl, rfl, rfl, rfl, rfl, hnone, rfl, rfl, rfl, rfl⟩

/-- Settles O19: the fields of State.reset; the empty table reads as blank entries. -/
theorem resetStateHoldsResetValues : Obligations.ResetStateHoldsResetValues :=
  ⟨rfl, rfl, fun _ => rfl, rfl, rfl, rfl, rfl, rfl, rfl, rfl⟩

/-- Settles O24: no operation of a step writes the parameters. -/
theorem parametersNeverChange : Obligations.ParametersNeverChange := by
  intro s t h
  rcases step_cases s t h with ⟨-, rfl⟩ | ⟨e, rest, d, -, -, rfl⟩ | ⟨e, rest, -, -, hedge⟩
  · rfl
  · rfl
  · rcases hedge with rfl | ⟨-, c, rfl⟩ | ⟨-, w, i, -, -, hexec⟩
    · rfl
    · rfl
    · exact exec_keeps_params i (s.afterDelivery e rest) t hexec

end Sys2Proof.Machine

/-! PROOF. What each command writes and reads (10_state.md R21 to R25, 20_memory.md R50 to R56, 41_packing.md R131, R142): frames of the commands, table and packing commands that do not see each other's registers, and the bits held. -/

namespace Sys2Proof.Machine

/-! ### What a command writes -/

/-- A command leaves what stands outside the block. -/
theorem exec_keeps_outside (i : Instr) (s t : State) (h : exec i s = .next t) : State.SameOutside s t := by
  have hraise (c : ErrorCause) : State.SameOutside s (s.raise c) := ⟨rfl, rfl, rfl, rfl⟩
  cases he : s.err with
  | true =>
    rw [exec_error i s he] at h
    obtain rfl := Host.Outcome.next.inj h
    exact ⟨rfl, rfl, rfl, rfl⟩
  | false =>
    cases i with
    | tblClr =>
      rw [exec_tblClr s he] at h
      obtain rfl := Host.Outcome.next.inj h
      exact ⟨rfl, rfl, rfl, rfl⟩
    | tblBegin idx len =>
      obtain ⟨-, -, houtside⟩ := s.beginLoad_frame idx len
      rw [exec_tblBegin s idx len he] at h
      obtain rfl := Host.Outcome.next.inj h
      split
      · split
        · exact houtside
        · exact hraise _
      · exact hraise _
    | tblData data =>
      obtain ⟨-, -, houtside, -⟩ := s.loadData_frame data
      rw [exec_tblData s data he] at h
      obtain rfl := Host.Outcome.next.inj h
      split
      · exact houtside
      · exact hraise _
    | sym idx =>
      rcases exec_sym_cases s t idx he h with rfl | ⟨c, -, rfl⟩
      · rw [s.putBits_frame]
        exact ⟨rfl, rfl, rfl, rfl⟩
      · exact hraise c
    | endStream =>
      rw [exec_endStream_closes s he] at h
      obtain rfl := Host.Outcome.next.inj h
      exact ⟨rfl, rfl, rfl, rfl⟩

/-- A command that is neither a SYM nor an END leaves the stream. -/
theorem exec_keeps_stream (i : Instr) (s t : State) (h : exec i s = .next t) (hsym : ∀ idx, i ≠ .sym idx)
    (hend : i ≠ .endStream) : State.SameStream s t := by
  cases he : s.err with
  | true =>
    rw [exec_error i s he] at h
    obtain rfl := Host.Outcome.next.inj h
    exact ⟨rfl, rfl, rfl⟩
  | false =>
    rcases exec_stream_cases i s t he h with ⟨-, hsame, -⟩ | ⟨idx, hi, -⟩ | ⟨hi, -⟩
    · exact hsame
    · exact absurd hi (hsym idx)
    · exact absurd hi hend

/-- A command that is no table command leaves the table and the load registers. -/
theorem exec_keeps_table (i : Instr) (s t : State) (h : exec i s = .next t) (hclr : i ≠ .tblClr)
    (hbegin : ∀ idx len, i ≠ .tblBegin idx len) (hdata : ∀ data, i ≠ .tblData data) :
    t.table = s.table ∧ State.SameLoadRegs s t := by
  rcases exec_table_cases i s t h with ⟨htab, hregs, -⟩ | ⟨hi, -⟩ | ⟨idx, len, hi, -⟩ | ⟨data, hi, -⟩
  · exact ⟨htab, hregs⟩
  · exact absurd hi hclr
  · exact absurd hi (hbegin idx len)
  · exact absurd hi (hdata data)

/-- Settles O25: the three frames of a command, the first two by contraposition. -/
theorem onlyNamedCommandsWrite : Obligations.OnlyNamedCommandsWrite := by
  intro i s t h
  refine ⟨fun hwrite => ?_, fun hwrite => ?_, exec_keeps_outside i s t h⟩
  · by_contra hother
    obtain ⟨hsym, hend⟩ := not_or.1 hother
    exact hwrite (exec_keeps_stream i s t h (not_exists.1 hsym) hend)
  · by_contra hother
    obtain ⟨hclr, hother⟩ := not_or.1 hother
    obtain ⟨hbegin, hdata⟩ := not_or.1 hother
    obtain ⟨htab, hregs⟩ := exec_keeps_table i s t h hclr (fun idx len hi => hbegin ⟨idx, len, hi⟩)
      (fun data hi => hdata ⟨data, hi⟩)
    rcases hwrite with hload | htable
    · exact hload hregs
    · exact htable htab

/-! ### Table commands and the accumulator (R100) -/

theorem State.beginLoad_setAcc (s : State) (idx len : Nat) (acc : Byte) (bitpos : BitVec 3) :
    (s.setAcc acc bitpos).beginLoad idx len = (s.beginLoad idx len).setAcc acc bitpos := by
  unfold State.beginLoad
  symm
  apply apply_ite (State.setAcc · acc bitpos)

theorem State.loadData_setAcc (s : State) (data : Half) (acc : Byte) (bitpos : BitVec 3) :
    (s.setAcc acc bitpos).loadData data = (s.loadData data).setAcc acc bitpos := by
  unfold State.loadData
  symm
  apply apply_ite (State.setAcc · acc bitpos)

/-- A table command reads neither ACC nor BITPOS. -/
theorem exec_table_setAcc (i : Instr) (hi : i = .tblClr ∨ (∃ idx len, i = .tblBegin idx len) ∨ ∃ d, i = .tblData d)
    (s t : State) (h : exec i s = .next t) (acc : Byte) (bitpos : BitVec 3) :
    exec i (s.setAcc acc bitpos) = .next (t.setAcc acc bitpos) := by
  cases he : s.err with
  | true =>
    rw [exec_error i s he] at h
    obtain rfl := Host.Outcome.next.inj h
    exact exec_error i _ he
  | false =>
    rcases hi with rfl | ⟨idx, len, rfl⟩ | ⟨data, rfl⟩
    · rw [exec_tblClr s he] at h
      obtain rfl := Host.Outcome.next.inj h
      exact exec_tblClr _ he
    · rw [exec_tblBegin s idx len he] at h
      obtain rfl := Host.Outcome.next.inj h
      rw [exec_tblBegin (s.setAcc acc bitpos) idx len he, s.beginLoad_setAcc, State.setAcc_params]
      split
      · split <;> rfl
      · rfl
    · rw [exec_tblData s data he] at h
      obtain rfl := Host.Outcome.next.inj h
      rw [exec_tblData (s.setAcc acc bitpos) data he, s.loadData_setAcc, State.setAcc_ldActive]
      split <;> rfl

/-- Settles O26: a table command is no SYM and no END, and its writes read the table and the load registers only. -/
theorem tableCommandsLeaveStream : Obligations.TableCommandsLeaveStream := by
  intro i hi s
  obtain ⟨t, ht⟩ := exec_answers i s
  refine ⟨exec_error i s, t, ht, exec_keeps_stream i s t ht ?_ ?_, exec_table_setAcc i hi s t ht⟩
  · rintro idx rfl
    simp at hi
  · rintro rfl
    simp at hi

/-! ### Packing commands, the table and the load registers (R130) -/

/-- The bit step reads no load register. -/
theorem State.putBits_withLoad (bits : List Bool) (active : Bool) (idx cur : Short) : ∀ s : State,
    State.putBits { s with ldActive := active, ldIdx := idx, ldCur := cur } bits =
      { s.putBits bits with ldActive := active, ldIdx := idx, ldCur := cur } := by
  induction bits with
  | nil => exact fun s => rfl
  | cons b bits ih =>
    intro s
    have hbit : State.putBit { s with ldActive := active, ldIdx := idx, ldCur := cur } b =
        { s.putBit b with ldActive := active, ldIdx := idx, ldCur := cur } := by
      unfold State.putBit
      dsimp only
      split <;> rfl
    exact (congrArg (State.putBits · bits) hbit).trans (ih (s.putBit b))

/-- A packing command reads no load register. -/
theorem exec_packing_withLoad (i : Instr) (hi : (∃ idx, i = .sym idx) ∨ i = .endStream) (s t : State)
    (h : exec i s = .next t) (active : Bool) (idx cur : Short) :
    exec i { s with ldActive := active, ldIdx := idx, ldCur := cur } =
      .next { t with ldActive := active, ldIdx := idx, ldCur := cur } := by
  rcases Bool.eq_false_or_eq_true s.err with he | he
  · rw [exec_error i s he] at h
    obtain rfl := Host.Outcome.next.inj h
    exact exec_error i _ he
  · rcases hi with ⟨sym, rfl⟩ | rfl
    · rw [exec_sym s sym he] at h
      obtain rfl := Host.Outcome.next.inj h
      have hexec := exec_sym { s with ldActive := active, ldIdx := idx, ldCur := cur } sym he
      refine hexec.trans (congrArg Host.Outcome.next ?_)
      rw [State.putBits_withLoad]
      change (if sym < s.params.capacity then if (s.entry sym).valid = true then _ else _ else _) = _
      split
      · split <;> rfl
      · rfl
    · rw [exec_endStream_closes s he] at h
      obtain rfl := Host.Outcome.next.inj h
      exact exec_endStream_closes _ he

theorem exec_endStream_withTable (s t : State) (h : exec .endStream s = .next t) (table : CodeTable) :
    exec .endStream { s with table := table } = .next { t with table := table } := by
  rcases Bool.eq_false_or_eq_true s.err with he | he
  · rw [exec_error _ s he] at h
    obtain rfl := Host.Outcome.next.inj h
    exact exec_error _ _ he
  · rw [exec_endStream_closes s he] at h
    obtain rfl := Host.Outcome.next.inj h
    exact exec_endStream_closes _ he

/-- Settles O38: a packing command writes no table and no load register; it reads of these the table only, and only SYM
does. -/
theorem packingCommandsLeaveLoadAndTable : Obligations.PackingCommandsLeaveLoadAndTable := by
  intro i hi s
  obtain ⟨t, ht⟩ := exec_answers i s
  have hframe : t.table = s.table ∧ State.SameLoadRegs s t := by
    rcases hi with ⟨idx, rfl⟩ | rfl <;> exact exec_keeps_table _ s t ht (by simp) (by simp) (by simp)
  obtain ⟨htab, hregs⟩ := hframe
  refine ⟨exec_error i s, t, ht, hregs, htab, exec_packing_withLoad i hi s t ht, ?_⟩
  rintro rfl
  exact exec_endStream_withTable s t ht

/-! ### The bits held (R131, R142) -/

/-- With R23 every position of the accumulator holds the bit held there, and 0 past the last of them. -/
theorem State.acc_getLsbD_of_tail (s : State) (j : Nat) (htail : s.AccTailZero) (hj : j < 8) :
    s.acc.getLsbD (7 - j) = s.heldBits.getD j false := by
  conv_lhs => rw [s.acc_eq_byteAt htail]
  rw [getLsbD_byteAt _ _ _ hj, Nat.mul_zero, Nat.zero_add]

/-- Position `j` of the byte that holds one bit more. -/
theorem State.getLsbD_held_snoc (s : State) (b : Bool) (j : Nat) (htail : s.AccTailZero) (hj : j < 8) :
    (byteAt (s.heldBits ++ [b]) 0).getLsbD (7 - j) = if j = s.bitpos.toNat then b else s.acc.getLsbD (7 - j) := by
  rw [getLsbD_byteAt _ _ _ hj, Nat.mul_zero, Nat.zero_add, s.acc_getLsbD_of_tail j htail hj]
  rcases lt_trichotomy j s.bitpos.toNat with hlt | heq | hgt
  · rw [if_neg hlt.ne, List.getD_append _ _ _ _ (by simpa using hlt)]
  · rw [if_pos heq, List.getD_append_right _ _ _ _ (by simp [heq])]
    simp [heq]
  · rw [if_neg hgt.ne', List.getD_eq_default _ _ (by simp; omega), List.getD_eq_default _ _ (by simp; omega)]

/-- Settles O39: the two cases of the bit step, read position by position. -/
theorem putBitPlacesOneBit : Obligations.PutBitPlacesOneBit := by
  intro s b htail
  have hspec := s.putBit_spec b htail
  have hbyte (j : Nat) (hj : j < 8) := s.getLsbD_held_snoc b j htail hj
  refine ⟨fun hlow => ?_, fun hlast => ?_⟩
  · rw [if_neg (by omega)] at hspec
    rw [hspec]
    refine ⟨hbyte, ?_, rfl⟩
    rw [State.setAcc_bitpos, BitVec.toNat_ofNat, Nat.mod_eq_of_lt (by omega)]
  · rw [if_pos hlast] at hspec
    rw [hlast] at hbyte
    rw [hspec]
    exact ⟨rfl, rfl, _, rfl, hbyte⟩

/-- Settles O44: END's items are the accumulator, whose positions hold the bits held and zeros, and the count. -/
theorem partialByteIsZeroPadded : Obligations.PartialByteIsZeroPadded := by
  intro s t htail he h
  rw [exec_endStream_closes s he] at h
  obtain rfl := Host.Outcome.next.inj h
  refine ⟨fun hflush hpos => ?_, fun hzero => ?_⟩
  · refine ⟨s.acc, BitVec.ofNat 8 s.bitpos.toNat, ?_, ?_, fun j hj => s.acc_getLsbD_of_tail j htail hj,
      s.accTailZero_iff.1 htail⟩
    · rw [s.closeStream_out, State.endItems, if_pos ⟨hflush, hpos⟩]
      rfl
    · rw [BitVec.toNat_ofNat, Nat.mod_eq_of_lt (by have := s.bitpos.isLt; omega)]
  · rw [s.closeStream_out, s.endItems_of_bitpos_zero hzero]

end Sys2Proof.Machine

/-! PROOF. Loads seen from outside (20_memory.md R59, 30_encoding.md R80): the code a TBL_DATA completes, and the commands of a CODE line, whose words carry its code. -/

namespace Sys2Proof.Machine

/-! ### The code a TBL_DATA completes (R59) -/

/-- The bits held are read from ACC and BITPOS only. -/
theorem State.heldBits_of_sameStream (s t : State) (h : State.SameStream s t) : t.heldBits = s.heldBits := by
  obtain ⟨hacc, hpos, -⟩ := h
  rw [State.heldBits, State.heldBits, hacc, hpos]

/-- A TBL_DATA whose word reaches the entry's last bit makes it valid: its code is the bits loaded before, then the
word's first ones. -/
theorem State.loadData_completes (s : State) (data : Half) (hwf : Memory.wf s.table = true)
    (hcur : s.ldCur.toNat < (s.entry s.ldIdx.toNat).len.toNat)
    (hlast : (s.entry s.ldIdx.toNat).len.toNat ≤ s.ldCur.toNat + 16) :
    ((s.loadData data).entry s.ldIdx.toNat).valid = true ∧
      ((s.loadData data).entry s.ldIdx.toNat).code = (s.entry s.ldIdx.toNat).code.take s.ldCur.toNat ++
        (dataBits data).take ((s.entry s.ldIdx.toNat).len.toNat - s.ldCur.toNat) := by
  obtain ⟨k, hk⟩ : ∃ k, k = loadCount (s.entry s.ldIdx.toNat) s.ldCur := ⟨_, rfl⟩
  have hreach : s.ldCur.toNat + k = (s.entry s.ldIdx.toNat).len.toNat := by rw [hk, loadCount]; omega
  have hentry := s.loadData_entry_self data k hk hwf
  have hbits (j : Nat) := s.loadData_bits data k j hk hwf
  have hlen : ((s.loadData data).entry s.ldIdx.toNat).len = (s.entry s.ldIdx.toNat).len := by rw [hentry]
  refine ⟨by rw [hentry]; exact if_pos hreach, List.ext_getElem ?_ fun j hj hj' => ?_⟩
  · rw [Entry.code_length, hlen]
    simp
    omega
  · have hjlen : j < (s.entry s.ldIdx.toNat).len.toNat := by simpa [hlen] using hj
    rw [← List.getD_eq_getElem _ false hj, Entry.code_getD _ _ (by rwa [hlen]), hbits, List.getElem_append]
    simp only [List.length_take, Entry.code_length, Nat.min_eq_left hcur.le]
    split
    next hnew =>
      rw [dif_neg (by omega)]
      simp [dataBits]
    next hold =>
      rw [dif_pos (by omega)]
      simp [Entry.code]

/-- Settles O37: the completed entry is valid with that code, and the law of the bit step says what its SYM emits. -/
theorem completedLoadIsSeenAtOnce : Obligations.CompletedLoadIsSeenAtOnce := by
  rintro s data _ hinv he ha rfl hlast
  obtain ⟨hidx, -, -, hcur⟩ := hinv.load ha
  obtain ⟨hstream, ⟨herr, -⟩, ⟨-, -, -, hparams⟩, -⟩ := s.loadData_frame data
  obtain ⟨hvalid, hcode⟩ := s.loadData_completes data hinv.table.1 hcur hlast
  have hlen : ((s.loadData data).entry s.ldIdx.toNat).code.length = (s.entry s.ldIdx.toNat).len.toNat := by
    rw [hcode]
    simp
    omega
  obtain ⟨hacc, hpos, hout⟩ := hstream
  obtain ⟨hsymOut, hsymPos, -⟩ := (s.loadData data).putBits_spec ((s.loadData data).entry s.ldIdx.toNat).code
    (s.accTailZero_of_same_regs _ hinv.accTail hacc hpos)
  refine ⟨_, _, exec_tblData_loading s data he ha,
    exec_sym_valid _ _ (by rw [herr, he]) (by rwa [hparams]) hvalid, ?_, ?_, by rw [State.putBits_err, herr, he]⟩
  · rw [hsymOut, hout, State.heldBits_of_sameStream s _ ⟨hacc, hpos, hout⟩, hcode, List.append_assoc]
  · rw [hsymPos, hpos, hlen]

/-! ### The words of a CODE line (R80) -/

/-- The fold that makes a data word, after `n` characters: those characters' bits from bit 15 down, zeros below. -/
theorem getLsbD_codeData_fold (c : List Bool) (k n j : Nat) (hn : n ≤ 16) (hj : j < 16) :
    ((List.range n).foldl (fun d i => if c.getD (16 * k + i) false then d ||| BitVec.twoPow 16 (15 - i) else d)
      (0 : Half)).getLsbD (15 - j) = (decide (j < n) && c.getD (16 * k + j) false) := by
  induction n with
  | zero => simp
  | succ n ih =>
    have hprev := ih (by omega)
    have hplace : (BitVec.twoPow 16 (15 - n)).getLsbD (15 - j) = decide (j = n) := by
      rw [BitVec.getLsbD_twoPow]
      by_cases h : j = n
      · simp [h]; omega
      · simp [h]; omega
    rw [List.range_succ, List.foldl_append, List.foldl_cons, List.foldl_nil]
    by_cases h : j = n
    · subst h
      split
      next hone => rw [BitVec.getLsbD_or, hplace, hone]; simp
      next hzero => rw [hprev, Bool.eq_false_of_not_eq_true hzero]; simp
    · have hlt : decide (j < n + 1) = decide (j < n) := by rw [decide_eq_decide]; omega
      rw [hlt]
      split
      next => rw [BitVec.getLsbD_or, hplace, hprev]; simp [h]
      next => exact hprev

/-- Bit `15 - j` of the `k`-th data word is character `16k + j` of the code, 0 past its end. -/
theorem getLsbD_codeData (c : List Bool) (k j : Nat) (hj : j < 16) :
    (codeData c k).getLsbD (15 - j) = c.getD (16 * k + j) false := by
  rw [codeData, getLsbD_codeData_fold c k 16 j le_rfl hj, decide_eq_true hj, Bool.true_and]

/-- The first `n` data words carry the first `16 n` characters of the code. -/
theorem getD_flatMap_codeData (c : List Bool) (n j : Nat) (hj : j < 16 * n) :
    (((List.range n).map (codeData c)).flatMap dataBits).getD j false = c.getD j false := by
  induction n with
  | zero => omega
  | succ n ih =>
    have hlen : ((List.range n).map (codeData c)).length = n := by simp
    rw [List.range_succ, List.map_append, List.map_singleton,
      getD_flatMap_dataBits_snoc _ _ _ (by rw [hlen]; omega), hlen]
    split
    next h => exact ih h
    next h => rw [getLsbD_codeData c n _ (by omega), show 16 * n + (j - 16 * n) = j by omega]

/-- The data words of a CODE line. -/
def codeWords (c : List Bool) : List Half := (List.range ((c.length + 15) / 16)).map (codeData c)

@[simp] theorem length_codeWords (c : List Bool) : (codeWords c).length = (c.length + 15) / 16 := by simp [codeWords]

theorem codeCommands_eq (idx : Nat) (c : List Bool) :
    codeCommands idx c = .tblBegin idx c.length :: (codeWords c).map .tblData := by
  rw [codeCommands, codeWords, List.map_map]
  rfl

/-- The data words of a CODE line carry its code. -/
theorem take_flatMap_codeWords (c : List Bool) : ((codeWords c).flatMap dataBits).take c.length = c := by
  have hlen := length_flatMap_dataBits (codeWords c)
  rw [length_codeWords] at hlen
  apply List.ext_getElem
  · rw [List.length_take, hlen]
    omega
  · intro j _ hj
    have hbit := getD_flatMap_codeData c ((c.length + 15) / 16) j (by omega)
    rwa [← codeWords, List.getD_eq_getElem _ _ (by omega), List.getD_eq_getElem _ _ hj,
      ← List.getElem_take (j := c.length)] at hbit

/-! ### The commands of a CODE line -/

/-- Nothing has changed but entry `idx` and the load registers. -/
structure State.LoadsOnly (s t : State) (idx : Nat) : Prop where
  others : ∀ j, j ≠ idx → t.entry j = s.entry j
  stream : State.SameStream s t
  status : State.SameStatus s t
  outside : State.SameOutside s t

theorem State.LoadsOnly.refl (s : State) (idx : Nat) : s.LoadsOnly s idx :=
  ⟨fun _ _ => rfl, ⟨rfl, rfl, rfl⟩, ⟨rfl, rfl⟩, ⟨rfl, rfl, rfl, rfl⟩⟩

theorem State.LoadsOnly.trans {s t u : State} {idx : Nat} (hst : s.LoadsOnly t idx) (htu : t.LoadsOnly u idx) :
    s.LoadsOnly u idx := by
  obtain ⟨hothers, hstream, ⟨herr, hcause⟩, ⟨hsent, hcurrent, hport, hparams⟩⟩ := hst
  obtain ⟨hothers', hstream', ⟨herr', hcause'⟩, ⟨hsent', hcurrent', hport', hparams'⟩⟩ := htu
  exact ⟨fun j hj => (hothers' j hj).trans (hothers j hj), hstream.trans hstream',
    ⟨herr'.trans herr, hcause'.trans hcause⟩,
    ⟨hsent'.trans hsent, hcurrent'.trans hcurrent, hport'.trans hport, hparams'.trans hparams⟩⟩

theorem State.beginLoad_loadsOnly (s : State) (idx len : Nat) (hwf : Memory.wf s.table = true) :
    s.LoadsOnly (s.beginLoad idx len) idx := by
  obtain ⟨hstream, hstatus, houtside⟩ := s.beginLoad_frame idx len
  exact ⟨fun j hj => by rw [s.beginLoad_entry idx len j hwf, if_neg hj], hstream, hstatus, houtside⟩

theorem State.loadData_loadsOnly (s : State) (data : Half) : s.LoadsOnly (s.loadData data) s.ldIdx.toNat := by
  obtain ⟨hstream, hstatus, houtside, -⟩ := s.loadData_frame data
  exact ⟨s.loadData_entry_ne data, hstream, hstatus, houtside⟩

/-- The empty code is loaded with no word at all. -/
theorem State.beginLoad_zero_progress (s : State) (idx : Nat) (hwf : Memory.wf s.table = true) :
    (s.beginLoad idx 0).LoadProgress idx 0 [] := by
  obtain ⟨hempty, -⟩ := s.beginLoad_load idx 0
  obtain ⟨hidle, -⟩ := hempty rfl
  have hentry := s.beginLoad_entry idx 0 idx hwf
  rw [if_pos rfl] at hentry
  exact {
    wf := s.beginLoad_wf idx 0 hwf
    length := by rw [hentry]; rfl
    bits := fun j hj _ => absurd hj (Nat.not_lt_zero j)
    valid := by rw [hentry]; rfl
    active := hidle
    cursor := fun h => absurd h (Nat.not_lt_zero _)
    count := Nat.zero_le _ }

/-- A load takes data words as long as it needs them: none raises an error. -/
theorem execAll_tblData_progress (idx len : Nat) (words : List Half) : ∀ (s : State) (ws : List Half),
    s.LoadProgress idx len ws → s.err = false → ws.length + words.length ≤ (len + 15) / 16 →
    ∃ t, execAll (words.map .tblData) s = .next t ∧ t.LoadProgress idx len (ws ++ words) ∧ s.LoadsOnly t idx := by
  induction words with
  | nil => exact fun s ws hs _ _ => ⟨s, rfl, by rwa [List.append_nil], .refl s idx⟩
  | cons data words ih =>
    intro s ws hs he hneeded
    rw [List.length_cons] at hneeded
    have hgoing : 16 * ws.length < len := by omega
    have hactive : s.ldActive = true := hs.active.trans (decide_eq_true hgoing)
    obtain ⟨hidx, -⟩ := hs.cursor hgoing
    have hone := s.loadData_loadsOnly data
    rw [hidx] at hone
    obtain ⟨t, ht, hprogress, hrest⟩ := ih (s.loadData data) (ws ++ [data])
      (s.loadData_progress idx len ws data hs hactive) (hone.status.1.trans he) (by simp; omega)
    refine ⟨t, ?_, by simpa using hprogress, hone.trans hrest⟩
    rw [List.map_cons, execAll_cons_next _ _ s _ (exec_tblData_loading s data he hactive), ht]

/-- Settles O36: the TBL_BEGIN starts the load, and the data words are as many as it needs and carry the code. -/
theorem codeLineLoadsItsCode : Obligations.CodeLineLoadsItsCode := by
  intro s idx c hinv he hidx hlen
  obtain ⟨-, hcap, -, hmax⟩ := hinv.params
  have hstart : (s.beginLoad idx c.length).LoadProgress idx c.length [] := by
    rcases Nat.eq_zero_or_pos c.length with hzero | hpos
    · rw [hzero]
      exact s.beginLoad_zero_progress idx hinv.table.1
    · exact s.beginLoad_progress idx c.length hinv.table.1 (by omega) (by omega) (by omega)
  have hbegin := s.beginLoad_loadsOnly idx c.length hinv.table.1
  obtain ⟨t, ht, hend, hwords⟩ := execAll_tblData_progress idx c.length (codeWords c) _ [] hstart
    (hbegin.status.1.trans he) (by simp)
  rw [List.nil_append] at hend
  have hall : c.length ≤ 16 * (codeWords c).length := by rw [length_codeWords]; omega
  obtain ⟨hothers, hstream, hstatus, houtside⟩ := hbegin.trans hwords
  refine ⟨t, ?_, hend.valid.trans (decide_eq_true hall), ?_, hend.active.trans (decide_eq_false (by omega)), hothers,
    hstream, hstatus, houtside⟩
  · rw [codeCommands_eq, execAll_cons_next _ _ s _ (exec_tblBegin_legal s idx c.length he hidx hlen), ht]
  · rw [hend.code_eq t idx c.length _ hall, take_flatMap_codeWords]

end Sys2Proof.Machine

/-! PROOF. The invariant (10_state.md R20 to R26, 20_memory.md R50, 41_packing.md R140): a reset meets it, and every command and every edge keeps it (`Obligations.StepKeepsInv`). -/

namespace Sys2Proof.Machine

/-! ### The table and the load in progress -/

/-- A command keeps every listed index below `N`. -/
theorem exec_keeps_tableLegal (i : Instr) (s t : State) (hs : s.Inv) (h : exec i s = .next t) : t.TableLegal := by
  obtain ⟨hwf, hlisted⟩ := hs.table
  refine ⟨exec_keeps_wf i s t h hwf, fun p hp => ?_⟩
  rw [exec_keeps_params i s t h]
  rcases exec_table_cases i s t h with ⟨htab, -⟩ | ⟨-, rfl⟩ | ⟨idx, len, -, hidx, -, rfl⟩ | ⟨data, -, ha, rfl⟩
  · rw [htab] at hp
    exact hlisted p hp
  · obtain ⟨q, hq, rfl⟩ := CodeTable.mem_clearValid s.table p hp
    exact hlisted q hq
  · rw [s.beginLoad_table] at hp
    rcases CodeTable.mem_write _ _ _ p hp with hold | rfl
    · exact hlisted p hold
    · exact hidx
  · rw [s.loadData_table data _ rfl] at hp
    rcases CodeTable.mem_write _ _ _ p hp with hold | rfl
    · exact hlisted p hold
    · obtain ⟨hidx, -⟩ := hs.load ha
      exact hidx

/-- A command makes an entry valid with length 0 or with the length its load began with. -/
theorem exec_keeps_codesFit (i : Instr) (s t : State) (hs : s.Inv) (h : exec i s = .next t) : t.CodesFit := by
  intro p hp hv
  rw [exec_keeps_params i s t h]
  rcases exec_table_cases i s t h with ⟨htab, -⟩ | ⟨-, rfl⟩ | ⟨idx, len, -, -, -, rfl⟩ | ⟨data, -, ha, rfl⟩
  · rw [htab] at hp
    exact hs.codes p hp hv
  · obtain ⟨q, -, rfl⟩ := CodeTable.mem_clearValid s.table p hp
    cases hv
  · rw [s.beginLoad_table] at hp
    rcases CodeTable.mem_write _ _ _ p hp with hold | rfl
    · exact hs.codes p hold hv
    · obtain rfl : len = 0 := of_decide_eq_true hv
      exact Nat.zero_le _
  · rw [s.loadData_table data _ rfl] at hp
    rcases CodeTable.mem_write _ _ _ p hp with hold | rfl
    · exact hs.codes p hold hv
    · obtain ⟨-, -, hlen, -⟩ := hs.load ha
      exact hlen

/-- The load that a TBL_BEGIN starts is of an entry not yet valid, at cursor 0 of a length that is not 0. -/
theorem State.beginLoad_loadLegal (s : State) (idx len : Nat) (hs : s.Inv) (hidx : idx < s.params.capacity)
    (hlen : len ≤ s.params.maxLen) : (s.beginLoad idx len).LoadLegal := by
  intro hactive
  obtain ⟨-, hcap, -, hmax⟩ := hs.params
  obtain ⟨-, -, -, -, -, hparams⟩ := s.beginLoad_frame idx len
  obtain ⟨hempty, -⟩ := s.beginLoad_load idx len
  have hpos : len ≠ 0 := by
    rintro rfl
    rw [(hempty rfl).1] at hactive
    cases hactive
  obtain ⟨hinvalid, hl, -, hldIdx, hcur⟩ := s.beginLoad_started idx len hs.table.1 (by omega) (by omega) hpos
  rw [hparams, hldIdx, hl, hcur]
  exact ⟨hidx, hinvalid, hlen, Nat.pos_of_ne_zero hpos⟩

/-- A load that a TBL_DATA does not complete goes on, its cursor below the length. -/
theorem State.loadData_loadLegal (s : State) (data : Half) (hs : s.Inv) (ha : s.ldActive = true) :
    (s.loadData data).LoadLegal := by
  intro hactive
  obtain ⟨hidx, hinvalid, hlen, hcur⟩ := hs.load ha
  obtain ⟨k, hk⟩ : ∃ k, k = loadCount (s.entry s.ldIdx.toNat) s.ldCur := ⟨_, rfl⟩
  obtain ⟨-, -, ⟨-, -, -, hparams⟩, hldIdx⟩ := s.loadData_frame data
  obtain ⟨-, hnewActive⟩ := s.loadData_load data k hk
  have hmore : s.ldCur.toNat + k ≠ (s.entry s.ldIdx.toNat).len.toNat := by
    intro hdone
    rw [hnewActive, if_pos hdone] at hactive
    cases hactive
  have hentry := s.loadData_entry_self data k hk hs.table.1
  rw [if_neg hmore] at hentry
  rw [hparams, hldIdx, hentry, s.loadData_cursor data k hk]
  refine ⟨hidx, hinvalid, hlen, ?_⟩
  rw [loadCount] at hk
  dsimp only
  omega

theorem exec_keeps_loadLegal (i : Instr) (s t : State) (hs : s.Inv) (h : exec i s = .next t) : t.LoadLegal := by
  rcases exec_table_cases i s t h with
    ⟨htab, ⟨hactive, hldIdx, hcur⟩, hparams, -⟩ | ⟨-, rfl⟩ | ⟨idx, len, -, hidx, hlen, rfl⟩ | ⟨data, -, ha, rfl⟩
  · intro ha
    rw [hparams, hldIdx, hcur, s.entry_of_table_eq t htab]
    exact hs.load (hactive.symm.trans ha)
  · intro ha
    cases ha
  · exact s.beginLoad_loadLegal idx len hs hidx hlen
  · exact s.loadData_loadLegal data hs ha

/-! ### The output stream -/

/-- The bit step only appends to the output stream. -/
theorem State.putBits_out_grows (bits : List Bool) : ∀ s : State, ∃ new, (s.putBits bits).out = s.out ++ new := by
  induction bits with
  | nil => exact fun s => ⟨[], by simp⟩
  | cons b bits ih =>
    intro s
    obtain ⟨rest, hrest⟩ := ih (s.putBit b)
    have hbit : ∃ new, (s.putBit b).out = s.out ++ new := by
      unfold State.putBit
      dsimp only
      split
      · exact ⟨_, rfl⟩
      · exact ⟨[], by simp⟩
    obtain ⟨new, hnew⟩ := hbit
    exact ⟨new ++ rest, by rw [← List.append_assoc, ← hnew]; exact hrest⟩

/-- A command only appends to the output stream. -/
theorem exec_out_grows (i : Instr) (s t : State) (h : exec i s = .next t) : ∃ new, t.out = s.out ++ new := by
  cases he : s.err with
  | true =>
    rw [exec_error i s he] at h
    obtain rfl := Host.Outcome.next.inj h
    exact ⟨[], by simp⟩
  | false =>
    rcases exec_stream_cases i s t he h with ⟨-, ⟨-, -, hout⟩, -⟩ | ⟨idx, -, rfl⟩ | ⟨-, rfl⟩
    · exact ⟨[], by simp [hout]⟩
    · exact State.putBits_out_grows _ s
    · exact ⟨_, rfl⟩

theorem exec_keeps_deliveryLegal (i : Instr) (s t : State) (hs : s.DeliveryLegal) (h : exec i s = .next t) :
    t.DeliveryLegal := by
  obtain ⟨new, hout⟩ := exec_out_grows i s t h
  obtain ⟨hsent, -⟩ := exec_keeps_outside i s t h
  rw [State.DeliveryLegal, hsent, hout, List.length_append]
  exact Nat.le_add_right_of_le hs

/-- The one control byte among END's items is `BITPOS`. -/
theorem State.controlByte_of_mem_endItems (s : State) (x : OutItem) (hx : x ∈ s.endItems) (hlast : x.last = true) :
    x.data.toNat ≤ 7 := by
  have hpos := s.bitpos.isLt
  rcases List.mem_append.1 hx with hpartial | hcontrol
  · split at hpartial
    · rw [List.mem_singleton.1 hpartial] at hlast
      cases hlast
    · cases hpartial
  · rw [List.mem_singleton.1 hcontrol, BitVec.toNat_ofNat]
    omega

/-- A SYM emits no control byte, and END emits one, `BITPOS`. -/
theorem exec_keeps_controlBytesLegal (i : Instr) (s t : State) (htail : s.AccTailZero) (hs : s.ControlBytesLegal)
    (h : exec i s = .next t) : t.ControlBytesLegal := by
  intro x hx hlast
  cases he : s.err with
  | true =>
    rw [exec_error i s he] at h
    obtain rfl := Host.Outcome.next.inj h
    exact hs x hx hlast
  | false =>
    rcases exec_stream_cases i s t he h with ⟨-, ⟨-, -, hout⟩, -⟩ | ⟨idx, -, rfl⟩ | ⟨-, rfl⟩
    · rw [hout] at hx
      exact hs x hx hlast
    · obtain ⟨hout, -⟩ := s.putBits_spec (s.entry idx).code htail
      rw [hout] at hx
      rcases List.mem_append.1 hx with hold | hnew
      · exact hs x hold hlast
      · rw [last_of_mem_dataBytes _ x hnew] at hlast
        cases hlast
    · rcases List.mem_append.1 hx with hold | hnew
      · exact hs x hold hlast
      · exact s.controlByte_of_mem_endItems x hnew hlast

/-! ### ERR and CAUSE -/

/-- The error entry writes a legal cause. -/
theorem State.raise_statusLegal (s : State) (c : ErrorCause) : (s.raise c).StatusLegal :=
  ⟨fun hno => (by cases hno), fun _ => c.code_legal⟩

theorem exec_keeps_statusLegal (i : Instr) (s t : State) (hs : s.StatusLegal) (h : exec i s = .next t) :
    t.StatusLegal := by
  rcases exec_status_cases i s t h with ⟨herr, hcause⟩ | ⟨-, c, rfl⟩
  · rwa [State.StatusLegal, herr, hcause]
  · exact s.raise_statusLegal c

/-! ### Commands, edges and resets -/

theorem exec_keeps_inv (i : Instr) (s t : State) (hs : s.Inv) (h : exec i s = .next t) : t.Inv where
  params := by rw [exec_keeps_params i s t h]; exact hs.params
  accTail := exec_keeps_accTailZero i s t hs.accTail h
  status := exec_keeps_statusLegal i s t hs.status h
  table := exec_keeps_tableLegal i s t hs h
  codes := exec_keeps_codesFit i s t hs h
  load := exec_keeps_loadLegal i s t hs h
  delivery := exec_keeps_deliveryLegal i s t hs.delivery h
  control := exec_keeps_controlBytesLegal i s t hs.accTail hs.control h

theorem State.raise_inv (s : State) (c : ErrorCause) (hs : s.Inv) : (s.raise c).Inv :=
  { hs with status := s.raise_statusLegal c }

/-- An edge's transfers receive at most an item that was emitted. -/
theorem State.afterDelivery_deliveryLegal (s : State) (e : PortEdge) (rest : List PortEdge) (hs : s.DeliveryLegal) :
    (s.afterDelivery e rest).DeliveryLegal := by
  unfold State.DeliveryLegal State.afterDelivery at *
  dsimp only
  split <;> omega

theorem State.afterDelivery_inv (s : State) (e : PortEdge) (rest : List PortEdge) (hs : s.Inv) :
    (s.afterDelivery e rest).Inv :=
  { hs with
    delivery := s.afterDelivery_deliveryLegal e rest hs.delivery }

/-- A reset meets the invariant from any state with legal parameters, whatever its draw. -/
theorem State.applyReset_inv (s : State) (d : ResetDraw) (hp : s.params.Legal) : (s.applyReset d).Inv where
  params := hp
  accTail := State.accTailZero_of_acc_zero _ rfl
  status := ⟨fun _ => rfl, fun herr => by cases herr⟩
  table := by
    obtain ⟨hwf, hlisted, -⟩ := CodeTable.ofDraw_legal s.params.capacity d.stale
    exact ⟨hwf, hlisted⟩
  codes := by
    rintro ⟨i, e⟩ hmem hv
    obtain ⟨hwf, -, hinvalid⟩ := CodeTable.ofDraw_legal s.params.capacity d.stale
    rw [← CodeTable.read_of_mem _ hwf i e hmem, hinvalid i] at hv
    cases hv
  load := fun ha => by cases ha
  delivery := Nat.le_refl 0
  control := fun x hx => by cases hx

/-- Settles O22: whatever a step does, it is made of operations that keep the invariant. -/
theorem stepKeepsInv : Obligations.StepKeepsInv := by
  intro s t hs h
  rcases step_cases s t h with ⟨-, rfl⟩ | ⟨e, rest, d, -, -, rfl⟩ | ⟨e, rest, -, -, hedge⟩
  · exact hs
  · exact State.applyReset_inv _ d hs.params
  · have hdelivered := s.afterDelivery_inv e rest hs
    rcases hedge with rfl | ⟨-, c, rfl⟩ | ⟨-, w, i, -, -, hexec⟩
    · exact hdelivered
    · exact State.raise_inv _ c hdelivered
    · exact exec_keeps_inv i _ t hdelivered hexec

/-- Settles O21: State.reset is what a reset of itself leaves, with this hardware's legal parameters. -/
theorem resetMeetsInv : Obligations.ResetMeetsInv :=
  State.reset.applyReset_inv ⟨0, 0, []⟩ (by decide)

end Sys2Proof.Machine

/-! PROOF. What the spec leaves unspecified is not observed (10_state.md R25, R30, 20_memory.md R51): two states that differ in nothing else answer every command and every edge with two such states (`Obligations.UnspecifiedStateIsUnobservable`). -/

namespace Sys2Proof.Machine

/-! ### Updates that read only what the two states share -/

/-- The two states still differ in nothing else once the same stream is written into both. -/
theorem State.SameMeaning.withStream {s t : State} (h : s.SameMeaning t) (acc : Byte) (bitpos : BitVec 3)
    (out : List OutItem) :
    State.SameMeaning { s with acc := acc, bitpos := bitpos, out := out }
      { t with acc := acc, bitpos := bitpos, out := out } :=
  { h with acc := rfl, bitpos := rfl, out := rfl }

theorem State.SameMeaning.raise {s t : State} (h : s.SameMeaning t) (c : ErrorCause) :
    (s.raise c).SameMeaning (t.raise c) :=
  { h with err := rfl, cause := rfl }

theorem State.SameMeaning.putBits {s t : State} (h : s.SameMeaning t) (bits : List Bool) :
    (s.putBits bits).SameMeaning (t.putBits bits) := by
  obtain ⟨hacc, hpos, hout⟩ := State.putBits_sameStream bits t s ⟨h.acc, h.bitpos, h.out⟩
  have hnew := h.withStream (s.putBits bits).acc (s.putBits bits).bitpos (s.putBits bits).out
  rw [← s.putBits_frame, hacc, hpos, hout, ← t.putBits_frame] at hnew
  exact hnew

theorem State.SameMeaning.closeStream {s t : State} (h : s.SameMeaning t) :
    s.closeStream.SameMeaning t.closeStream :=
  { h with
    acc := rfl
    bitpos := rfl
    out := State.closeStream_out_congr t s ⟨h.acc, h.bitpos, h.out⟩ h.params }

/-! ### The table commands -/

theorem State.SameMeaning.clearTable {s t : State} (h : s.SameMeaning t) (hs : Memory.wf s.table = true)
    (ht : Memory.wf t.table = true) : s.clearTable.endLoad.SameMeaning t.clearTable.endLoad :=
  { h with
    codes := fun i _ => by
      rw [State.endLoad_entry, State.endLoad_entry, s.clearTable_entry i hs, t.clearTable_entry i ht]
      exact ⟨rfl, fun hv => (by cases hv)⟩
    ldActive := rfl
    ldIdx := fun ha => (by cases ha)
    ldCur := fun ha => (by cases ha)
    loading := fun ha => (by cases ha) }

/-- After a write to the same entry of both states, only that entry and the load registers are to be compared. -/
theorem State.SameMeaning.of_loadsOnly {s t s' t' : State} (h : s.SameMeaning t) (idx : Nat)
    (hs : s.LoadsOnly s' idx) (ht : t.LoadsOnly t' idx) (hcode : (s'.entry idx).SameCode (t'.entry idx))
    (hactive : s'.ldActive = t'.ldActive)
    (hload : s'.ldActive = true → s'.ldIdx = t'.ldIdx ∧ s'.ldCur = t'.ldCur ∧
      (s'.entry s'.ldIdx.toNat).SameLoad (t'.entry s'.ldIdx.toNat) s'.ldCur.toNat) : s'.SameMeaning t' := by
  obtain ⟨hothers, ⟨hacc, hpos, hout⟩, ⟨herr, hcause⟩, ⟨hsent, hcurrent, hport, hparams⟩⟩ := hs
  obtain ⟨hothers', ⟨hacc', hpos', hout'⟩, ⟨herr', hcause'⟩, ⟨hsent', hcurrent', hport', hparams'⟩⟩ := ht
  exact {
    acc := by rw [hacc, hacc', h.acc]
    bitpos := by rw [hpos, hpos', h.bitpos]
    codes := fun i hi => by
      by_cases hidx : i = idx
      · rwa [hidx]
      · rw [hothers i hidx, hothers' i hidx]
        exact h.codes i (by rwa [← hparams])
    ldActive := hactive
    ldIdx := fun ha => (hload ha).1
    ldCur := fun ha => (hload ha).2.1
    loading := fun ha => (hload ha).2.2
    err := by rw [herr, herr', h.err]
    cause := by rw [hcause, hcause', h.cause]
    out := by rw [hout, hout', h.out]
    sent := by rw [hsent, hsent', h.sent]
    current := by rw [hcurrent, hcurrent', h.current]
    port := by rw [hport, hport']; exact h.port
    params := by rw [hparams, hparams', h.params] }

/-- A TBL_BEGIN gives the entry the same length in both states, and no bit of it counts before it is loaded. -/
theorem State.SameMeaning.beginLoad {s t : State} (h : s.SameMeaning t) (idx len : Nat)
    (hs : Memory.wf s.table = true) (ht : Memory.wf t.table = true) (hidx : idx ≤ 1023) :
    (s.beginLoad idx len).SameMeaning (t.beginLoad idx len) := by
  have hentry (j : Nat) := s.beginLoad_entry idx len j hs
  have hentry' (j : Nat) := t.beginLoad_entry idx len j ht
  obtain ⟨hempty, hstart⟩ := s.beginLoad_load idx len
  obtain ⟨hempty', hstart'⟩ := t.beginLoad_load idx len
  have hcode : ((s.beginLoad idx len).entry idx).SameCode ((t.beginLoad idx len).entry idx) := by
    rw [hentry idx, hentry' idx, if_pos rfl, if_pos rfl]
    refine ⟨rfl, fun hv => Entry.code_congr _ _ rfl fun j hj => ?_⟩
    obtain rfl : len = 0 := of_decide_eq_true hv
    exact absurd hj (Nat.not_lt_zero j)
  refine h.of_loadsOnly idx (s.beginLoad_loadsOnly idx len hs) (t.beginLoad_loadsOnly idx len ht) hcode ?_ fun ha => ?_
  · by_cases hlen : len = 0
    · rw [(hempty hlen).1, (hempty' hlen).1]
    · rw [(hstart hlen).1, (hstart' hlen).1]
  · have hlen : len ≠ 0 := fun hzero => by
      rw [(hempty hzero).1] at ha
      cases ha
    obtain ⟨-, hldIdx, hcur⟩ := hstart hlen
    obtain ⟨-, hldIdx', hcur'⟩ := hstart' hlen
    refine ⟨by rw [hldIdx, hldIdx'], by rw [hcur, hcur'], ?_, fun j hj => ?_⟩
    · rw [hldIdx, toNat_ofNat_short idx hidx, hentry, hentry', if_pos rfl, if_pos rfl]
    · rw [hcur] at hj
      exact absurd hj (Nat.not_lt_zero j)

/-- A TBL_DATA stores the same bits at the same cursor in both states, on top of the same bits loaded before. -/
theorem State.SameMeaning.loadData {s t : State} (h : s.SameMeaning t) (data : Half) (hs : s.Inv) (ht : t.Inv)
    (ha : s.ldActive = true) : (s.loadData data).SameMeaning (t.loadData data) := by
  have hidx := h.ldIdx ha
  have hcur := h.ldCur ha
  obtain ⟨hlen, hloaded⟩ := h.loading ha
  obtain ⟨hin, hinvalid, -, -⟩ := hs.load ha
  obtain ⟨hvalid, -⟩ := h.codes _ hin
  obtain ⟨k, hk⟩ : ∃ k, k = loadCount (s.entry s.ldIdx.toNat) s.ldCur := ⟨_, rfl⟩
  have hk' : k = loadCount (t.entry t.ldIdx.toNat) t.ldCur := by rw [hk, loadCount, loadCount, ← hidx, ← hcur, hlen]
  have hentry := s.loadData_entry_self data k hk hs.table.1
  have hentry' := t.loadData_entry_self data k hk' ht.table.1
  have hbits (j : Nat) := s.loadData_bits data k j hk hs.table.1
  have hbits' (j : Nat) := t.loadData_bits data k j hk' ht.table.1
  have hnewCur := s.loadData_cursor data k hk
  have hnewCur' := t.loadData_cursor data k hk'
  obtain ⟨-, hactive⟩ := s.loadData_load data k hk
  obtain ⟨-, hactive'⟩ := t.loadData_load data k hk'
  obtain ⟨-, -, -, hldIdx⟩ := s.loadData_frame data
  obtain ⟨-, -, -, hldIdx'⟩ := t.loadData_frame data
  have honly := t.loadData_loadsOnly data
  simp only [← hidx, ← hcur] at hentry' hbits' hnewCur' hactive' honly
  have hsame (j : Nat) (hj : j < s.ldCur.toNat + k) :
      ((s.loadData data).entry s.ldIdx.toNat).bits.getLsbD j =
        ((t.loadData data).entry s.ldIdx.toNat).bits.getLsbD j := by
    rw [hbits j, hbits' j]
    split
    next => rfl
    next hold => exact hloaded j (by omega)
  refine h.of_loadsOnly _ (s.loadData_loadsOnly data) honly ⟨?_, fun hv => ?_⟩ ?_ fun hgoing => ?_
  · rw [hentry, hentry', hlen, hvalid]
  · have hdone : s.ldCur.toNat + k = (s.entry s.ldIdx.toNat).len.toNat := by
      by_contra hmore
      rw [hentry, if_neg hmore, hinvalid] at hv
      cases hv
    refine Entry.code_congr _ _ (by rw [hentry, hentry', hlen]) fun j hj => hsame j ?_
    rwa [hentry, ← hdone] at hj
  · rw [hactive, hactive', hlen, h.ldActive]
  · rw [hldIdx, hldIdx']
    refine ⟨hidx, BitVec.eq_of_toNat_eq (hnewCur.trans hnewCur'.symm), by rw [hentry, hentry', hlen], ?_⟩
    rwa [hnewCur]

/-! ### Commands -/

theorem exec_sameMeaning (i : Instr) (s t : State) (hs : s.Inv) (ht : t.Inv) (h : s.SameMeaning t) :
    ∃ s' t', exec i s = .next s' ∧ exec i t = .next t' ∧ s'.SameMeaning t' := by
  have herr := h.err
  cases he : s.err with
  | true =>
    rw [he] at herr
    exact ⟨s, t, exec_error i s he, exec_error i t herr.symm, h⟩
  | false =>
    rw [he] at herr
    cases i with
    | tblClr => exact ⟨_, _, exec_tblClr s he, exec_tblClr t herr.symm, h.clearTable hs.table.1 ht.table.1⟩
    | tblBegin idx len =>
      refine ⟨_, _, exec_tblBegin s idx len he, exec_tblBegin t idx len herr.symm, ?_⟩
      rw [← h.params]
      obtain ⟨-, hcap, -⟩ := hs.params
      split
      next hidx =>
        split
        · exact h.beginLoad idx len hs.table.1 ht.table.1 (by omega)
        · exact h.raise _
      next => exact h.raise _
    | tblData data =>
      refine ⟨_, _, exec_tblData s data he, exec_tblData t data herr.symm, ?_⟩
      rw [← h.ldActive]
      split
      next ha => exact h.loadData data hs ht ha
      next => exact h.raise _
    | sym idx =>
      refine ⟨_, _, exec_sym s idx he, exec_sym t idx herr.symm, ?_⟩
      rw [← h.params]
      split
      next hidx =>
        obtain ⟨hvalid, hcode⟩ := h.codes idx hidx
        rw [← hvalid]
        split
        next hv => rw [← hcode hv]; exact h.putBits _
        next => exact h.raise _
      next => exact h.raise _
    | endStream => exact ⟨_, _, exec_endStream_closes s he, exec_endStream_closes t herr.symm, h.closeStream⟩

theorem runWord_sameMeaning (w : Word) (s t : State) (hs : s.Inv) (ht : t.Inv) (h : s.SameMeaning t) :
    ∃ s' t', runWord w s = .next s' ∧ runWord w t = .next t' ∧ s'.SameMeaning t' := by
  have herr := h.err
  cases he : s.err with
  | true =>
    rw [he] at herr
    exact ⟨s, t, runWord_error w s he, runWord_error w t herr.symm, h⟩
  | false =>
    rw [he] at herr
    rw [runWord_running w s he, runWord_running w t herr.symm]
    cases decode w with
    | command i => exact exec_sameMeaning i s t hs ht h
    | illegalOpcode => exact ⟨_, _, rfl, rfl, h.raise _⟩
    | reservedBits => exact ⟨_, _, rfl, rfl, h.raise _⟩

/-! ### Edges -/

/-- A reset makes every entry invalid and ends the load, so that its draw only reaches what is unspecified. -/
theorem State.SameMeaning.applyReset {s t : State} (hparams : s.params = t.params)
    (hport : List.Forall₂ PortEdge.SameAction s.port t.port) (d d' : ResetDraw) :
    (s.applyReset d).SameMeaning (t.applyReset d') where
  acc := rfl
  bitpos := rfl
  codes := fun i _ => ⟨by simp, fun hv => by simp at hv⟩
  ldActive := rfl
  ldIdx := fun ha => by cases ha
  ldCur := fun ha => by cases ha
  loading := fun ha => by cases ha
  err := rfl
  cause := rfl
  out := rfl
  sent := rfl
  current := rfl
  port := hport
  params := hparams

/-- Edges without reset at which the host does the same make the same transfers. -/
theorem State.SameMeaning.afterDelivery {s t : State} (h : s.SameMeaning t) (e e' : PortEdge)
    (rest rest' : List PortEdge) (hcmd : e.cmd = e'.cmd) (hready : e.outReady = e'.outReady)
    (hrest : List.Forall₂ PortEdge.SameAction rest rest') :
    (s.afterDelivery e rest).SameMeaning (t.afterDelivery e' rest') :=
  { h with
    sent := by simp only [State.afterDelivery, hready, h.sent, h.out]
    current := by simp only [State.afterDelivery, hcmd, h.current]
    port := hrest }

theorem step_sameMeaning (s t : State) (hs : s.Inv) (ht : t.Inv) (h : s.SameMeaning t) :
    ∃ s' t', step s = .next s' ∧ step t = .next t' ∧ s'.SameMeaning t' := by
  have hport := h.port
  cases hp : s.port with
  | nil =>
    rw [hp, List.forall₂_nil_left_iff] at hport
    exact ⟨s, t, step_waiting s hp, step_waiting t hport, h⟩
  | cons e rest =>
    rw [hp, List.forall₂_cons_left_iff] at hport
    obtain ⟨e', rest', ⟨hrst, htransfers⟩, hrest, hp'⟩ := hport
    cases hr : e.rst with
    | some d =>
      rw [hr] at hrst
      obtain ⟨d', hr'⟩ := Option.isSome_iff_exists.1 hrst.symm
      have hreset := State.SameMeaning.applyReset (s := { s with port := rest }) (t := { t with port := rest' })
        h.params hrest d d'
      exact ⟨_, _, step_reset s e rest d hp hr, step_reset t e' rest' d' hp' hr', hreset⟩
    | none =>
      rw [hr] at hrst
      have hr' : e'.rst = none := Option.isNone_iff_eq_none.1 (Option.isSome_eq_false_iff.1 hrst.symm)
      obtain ⟨hcmd, hready⟩ := htransfers hr
      have hdelivered := h.afterDelivery e e' rest rest' hcmd hready hrest
      rw [step_edge s e rest hp hr, step_edge t e' rest' hp' hr', ← hcmd]
      cases e.cmd with
      | none => exact ⟨_, _, rfl, rfl, hdelivered⟩
      | some w =>
        exact runWord_sameMeaning w _ _ (s.afterDelivery_inv e rest hs) (t.afterDelivery_inv e' rest' ht) hdelivered

/-! ### What the host sees -/

/-- The pins show nothing of what is unspecified: of an edge to come only what the host does at it. -/
theorem State.SameMeaning.pins_eq {s t : State} (h : s.SameMeaning t) : s.pins = t.pins := by
  have hport := h.port
  have hsignals : s.cmdReady = t.cmdReady ∧ s.resetAsserted = t.resetAsserted := by
    cases hp : s.port with
    | nil =>
      rw [hp, List.forall₂_nil_left_iff] at hport
      simp [State.cmdReady, State.resetAsserted, hp, hport]
    | cons e rest =>
      rw [hp, List.forall₂_cons_left_iff] at hport
      obtain ⟨e', rest', ⟨hrst, htransfers⟩, -, hp'⟩ := hport
      rw [s.cmdReady_edge e rest hp, t.cmdReady_edge e' rest' hp']
      simp only [State.resetAsserted, hp, hp', ← hrst, and_true]
      cases hr : e.rst with
      | some d => rfl
      | none => rw [(htransfers hr).1]
  obtain ⟨hready, hrst⟩ := hsignals
  simp only [State.pins, State.outItem, hready, hrst, h.out, h.sent, h.err, h.cause]

theorem State.SameMeaning.observation_eq {s t : State} (h : s.SameMeaning t) : s.observation = t.observation := by
  simp only [State.observation, State.received, h.out, h.sent, h.err, h.cause]

/-- Settles O51: the pins and the observation read no unspecified state, and no command or edge brings any into the
rest. -/
theorem unspecifiedStateIsUnobservable : Obligations.UnspecifiedStateIsUnobservable := by
  intro s t hs ht h
  exact ⟨h.pins_eq, h.observation_eq, step_sameMeaning s t hs ht h⟩

end Sys2Proof.Machine

/-! PROOF. Delivery and the end of a run (10_state.md R34, 70_reset_and_hazards.md R191, R199, R201): what an edge delivers, a run of accepting edges, and the run of a list of commands with END as its last one. -/

namespace Sys2Proof.Machine

/-! ### What an edge delivers (R34) -/

/-- Everything an edge without reset does to the output port: its transfer, while its command at most appends to the
stream. -/
theorem step_edge_frame (s t : State) (e : PortEdge) (rest : List PortEdge) (hp : s.port = e :: rest)
    (hr : e.rst = none) (h : step s = .next t) :
    (∃ new, t.out = s.out ++ new) ∧ State.SameOutside (s.afterDelivery e rest) t := by
  have hsame : (∃ new, s.out = s.out ++ new) := ⟨[], by simp⟩
  rcases step_cases s t h with ⟨hnil, -⟩ | ⟨e', rest', d, hp', hr', -⟩ | ⟨e', rest', hp', -, hedge⟩
  · rw [hp] at hnil
    cases hnil
  · obtain ⟨rfl, -⟩ := List.cons.inj (hp.symm.trans hp')
    rw [hr] at hr'
    cases hr'
  · obtain ⟨rfl, rfl⟩ := List.cons.inj (hp.symm.trans hp')
    rcases hedge with rfl | ⟨-, c, rfl⟩ | ⟨-, w, i, -, -, hexec⟩
    · exact ⟨hsame, rfl, rfl, rfl, rfl⟩
    · exact ⟨hsame, rfl, rfl, rfl, rfl⟩
    · exact ⟨exec_out_grows i (s.afterDelivery e rest) t hexec, exec_keeps_outside i _ t hexec⟩

/-- An accepting edge delivers the item on offer, if there is one, and any other edge none. -/
theorem State.afterDelivery_received (s : State) (e : PortEdge) (rest : List PortEdge) :
    (s.afterDelivery e rest).received = s.received ++ (if e.outReady then s.outItem.toList else []) := by
  unfold State.received State.afterDelivery State.outItem
  dsimp only
  cases e.outReady with
  | false => simp
  | true =>
    rcases Nat.lt_or_ge s.sent s.out.length with hlt | hge
    · rw [if_pos ⟨rfl, hlt⟩, if_pos rfl, List.take_add_one]
    · rw [if_neg (by omega), if_pos rfl, List.getElem?_eq_none hge, Option.toList_none, List.append_nil]

/-- Settles O48: the edge's transfer delivers the next item, and what its command appends comes after all of them. -/
theorem deliveryIsInOrder : Obligations.DeliveryIsInOrder := by
  intro s t e rest hs hp hr h
  obtain ⟨⟨new, hout⟩, hsent, -, hport, -⟩ := step_edge_frame s t e rest hp hr h
  have hlegal := s.afterDelivery_deliveryLegal e rest hs
  have hreceived : t.received = (s.afterDelivery e rest).received := by
    rw [State.received, hout, hsent]
    exact List.take_append_of_le_length hlegal
  refine ⟨⟨new, hout⟩, hport, hreceived.trans (s.afterDelivery_received e rest), ?_⟩
  exact ⟨t.out.drop t.sent, (List.take_append_drop ..).symm⟩

/-! ### Accepting edges (R191, R199) -/

theorem State.afterDelivery_accept (s : State) (rest : List PortEdge) (hlt : s.sent < s.out.length) :
    s.afterDelivery PortEdge.accept rest = { s with port := rest, sent := s.sent + 1 } := by
  simp [State.afterDelivery, PortEdge.accept, hlt]

/-- `n` accepting edges deliver the next `n` items and do nothing else. -/
theorem run_accept (n : Nat) : ∀ (s : State) (rest : List PortEdge), s.sent + n ≤ s.out.length →
    s.port = List.replicate n PortEdge.accept ++ rest →
    Host.Core.run Sys2Proof.core n s = .next { s with port := rest, sent := s.sent + n } := by
  induction n with
  | zero =>
    rintro s rest - rfl
    rfl
  | succ n ih =>
    intro s rest hn hp
    have hstep := step_edge s PortEdge.accept (List.replicate n PortEdge.accept ++ rest) hp rfl
    rw [s.afterDelivery_accept _ (by omega)] at hstep
    rw [run_succ_next n s _ hstep, ih _ rest (by dsimp only; omega) rfl]
    dsimp only
    rw [Nat.add_assoc, Nat.add_comm 1 n]

/-- Settles O49: as many accepting edges as there are items to deliver. -/
theorem acceptingHostReceivesEverything : Obligations.AcceptingHostReceivesEverything := by
  intro s hs hp
  have hall : s.sent + (s.out.length - s.sent) = s.out.length := Nat.add_sub_cancel' hs
  refine ⟨_, run_accept _ s [] hall.le (by rw [hp, List.append_nil]), ?_, ?_⟩
  · simp [State.received, hall]
  · simp [State.outItem, hall]

/-- Settles O50: the accepting edges before the reset deliver the next `n` items, and the reset empties the stream. -/
theorem resetDiscardsUndelivered : Obligations.ResetDiscardsUndelivered := by
  intro s n draw rest hs hn hp
  exact ⟨_, _, run_accept n s _ hn hp, rfl, step_reset _ _ rest draw rfl rfl, rfl, rfl⟩

/-! ### Lists of commands, their errors and what stands outside -/

theorem execAll_withOutside (is : List Instr) (t : State) (p : List PortEdge) (c : Option Word) : ∀ s : State,
    execAll is s = .next t →
      execAll is { s with port := p, current := c } = .next { t with port := p, current := c } := by
  induction is with
  | nil =>
    intro s h
    obtain rfl := Host.Outcome.next.inj h
    rfl
  | cons i is ih =>
    intro s h
    obtain ⟨u, hu, hrest⟩ := execAll_cons_cases i is s t h
    obtain ⟨v, hv, -, -, hv'⟩ := exec_withOutside i s p c
    obtain rfl := Host.Outcome.next.inj (hu.symm.trans hv)
    rw [execAll_cons_next i is _ _ hv']
    exact ih u hrest

theorem execAll_keeps_sent (is : List Instr) (t : State) : ∀ s : State, execAll is s = .next t → t.sent = s.sent := by
  induction is with
  | nil =>
    intro s h
    obtain rfl := Host.Outcome.next.inj h
    rfl
  | cons i is ih =>
    intro s h
    obtain ⟨u, hu, hrest⟩ := execAll_cons_cases i is s t h
    obtain ⟨hsent, -⟩ := exec_keeps_outside i s u hu
    exact (ih u hrest).trans hsent

/-- Commands that end without an error have left CAUSE as it was. -/
theorem execAll_keeps_cause (is : List Instr) (t : State) (ht : t.err = false) : ∀ s : State,
    execAll is s = .next t → t.cause = s.cause := by
  induction is with
  | nil =>
    intro s h
    obtain rfl := Host.Outcome.next.inj h
    rfl
  | cons i is ih =>
    intro s h
    obtain ⟨u, hu, hrest⟩ := execAll_cons_cases i is s t h
    rcases exec_status_cases i s u hu with ⟨-, hcause⟩ | ⟨-, c, rfl⟩
    · exact (ih u hrest).trans hcause
    · cases err_false_of_execAll is _ t hrest ht

/-- Commands with END as the last one that end without an error leave a closed stream. -/
theorem closeStream_of_execAll (is : List Instr) (s u : State) (h : execAll (is ++ [.endStream]) s = .next u)
    (hu : u.err = false) : ∃ v : State, u = v.closeStream := by
  obtain ⟨v, hv⟩ := execAll_answers is s
  rw [execAll_append_next is _ v s hv] at h
  have herr := err_false_of_execAll [.endStream] v u h hu
  rw [execAll_cons_next _ [] v _ (exec_endStream_closes v herr)] at h
  exact ⟨v, (Host.Outcome.next.inj h).symm⟩

/-- The last item of a closed stream is a control byte. -/
theorem State.closeStream_getLast (s : State) : ∃ x, s.closeStream.out.getLast? = some x ∧ x.last = true := by
  rw [s.closeStream_out, State.endItems, ← List.append_assoc, List.getLast?_concat]
  exact ⟨_, rfl, rfl⟩

/-! ### The end of a run (R201) -/

/-- R201 (a), for a run without an error. -/
theorem State.ended_iff (s : State) (he : s.err = false) :
    s.ended = true ↔ s.current = some (encode .endStream) ∧ s.sent = s.out.length ∧
      (∃ x, s.out.getLast? = some x ∧ x.last = true) ∧ commandPending s.port = false := by
  unfold State.ended
  cases s.out.getLast? with
  | none => simp [he]
  | some x => simp [he, and_assoc]

/-- Accepting edges bring no command. -/
theorem commandPending_accept (n : Nat) : commandPending (List.replicate n PortEdge.accept) = false := by
  induction n with
  | zero => rfl
  | succ n ih => exact ih

/-- A run in two parts. -/
theorem run_add (m k : Nat) (u : State) : ∀ s : State, Host.Core.run Sys2Proof.core m s = .next u →
    Host.Core.run Sys2Proof.core (m + k) s = Host.Core.run Sys2Proof.core k u := by
  induction m with
  | zero =>
    intro s h
    obtain rfl := Host.Outcome.next.inj h
    rw [Nat.zero_add]
  | succ m ih =>
    intro s h
    obtain ⟨t, ht⟩ := step_answers s
    rw [run_succ_next m s t ht] at h
    rw [Nat.succ_add, run_succ_next _ s t ht]
    exact ih t h

/-- Commands with END as the last one, then `k` accepting edges: the commands have run in order, and `k` more items are
received. -/
theorem run_commands_accept (s u : State) (is : List Instr) (k : Nat) (rest : List PortEdge)
    (hwell : ∀ i ∈ is, i.wellFormed = true) (h : execAll (is ++ [.endStream]) s = .next u)
    (hk : s.sent + k ≤ u.out.length)
    (hp : s.port = commandEdges (is ++ [.endStream]) ++ (List.replicate k PortEdge.accept ++ rest)) :
    Host.Core.run Sys2Proof.core (is.length + 1 + k) s =
      .next { u with port := rest, sent := s.sent + k, current := some (encode .endStream) } := by
  have hcommands := transferredCommandsRunInOrder (is ++ [.endStream]) s (List.replicate k PortEdge.accept ++ rest)
    fun i hi => by
      rcases List.mem_append.1 hi with hi | hi
      · exact hwell i hi
      · rw [List.mem_singleton.1 hi]
        rfl
  have hlast : ((is ++ [Instr.endStream]).getLast?.map encode).or s.current = some (encode .endStream) := by simp
  rw [← hp, hlast, execAll_withOutside _ u _ _ s h, List.length_append, List.length_singleton] at hcommands
  have hsent := execAll_keeps_sent _ u s h
  rw [run_add _ k _ s hcommands, run_accept k _ rest (by dsimp only; omega) rfl]
  dsimp only
  rw [hsent]

/-- While the last command transferred is another one than END, the run has not ended. -/
theorem step_word_not_ended (s t : State) (e : PortEdge) (rest : List PortEdge) (w : Word) (hp : s.port = e :: rest)
    (hr : e.rst = none) (hc : e.cmd = some w) (h : step s = .next t) (he : t.err = false)
    (hw : w ≠ encode .endStream) : t.ended = false := by
  obtain ⟨-, -, hcurrent, -⟩ := step_edge_frame s t e rest hp hr h
  have hword : t.current = some w := by rw [hcurrent, State.afterDelivery, hc]; rfl
  rw [← Bool.not_eq_true, t.ended_iff he, hword]
  rintro ⟨hend, -⟩
  exact hw (Option.some.inj hend)

/-- Nor while a command is to come before the next reset. -/
theorem State.pending_not_ended (s : State) (hpending : commandPending s.port = true) (he : s.err = false) :
    s.ended = false := by
  rw [← Bool.not_eq_true, s.ended_iff he, hpending]
  rintro ⟨-, -, -, hnone⟩
  cases hnone

/-- Of the edges to come a run's end is told by the pending command only. -/
theorem State.ended_congr_port (s : State) (p q : List PortEdge) (h : commandPending p = commandPending q) :
    State.ended { s with port := p } = State.ended { s with port := q } := by
  unfold State.ended
  dsimp only
  rw [h]

/-- Settles O52: the run of the commands and the accepting edges, and the reading of R201 at each point. -/
theorem runEndsAfterLastEnd : Obligations.RunEndsAfterLastEnd := by
  refine ⟨fun s he => by simp [State.ended, he], ?_, step_word_not_ended, ?_, ?_⟩
  · intro s u is k n hinv he hwell h hu hn hk hp
    have hsplit : List.replicate n PortEdge.accept =
        List.replicate k PortEdge.accept ++ List.replicate (n - k) PortEdge.accept := by
      rw [List.replicate_append_replicate, Nat.add_sub_cancel' hk]
    rw [hsplit] at hp
    have hcause : u.cause = 0 := (execAll_keeps_cause _ u hu s h).trans (hinv.status.1 he)
    have hcontrol : ∃ x, u.out.getLast? = some x ∧ x.last = true := by
      obtain ⟨v, rfl⟩ := closeStream_of_execAll is s u h hu
      exact v.closeStream_getLast
    refine ⟨_, run_commands_accept s u is k _ hwell h (by omega) hp, ?_, ?_⟩
    · rw [State.observation, State.received]
      dsimp only
      rw [hu, hcause]
    · rw [State.ended_iff _ (by exact hu)]
      dsimp only
      rw [commandPending_accept]
      constructor
      · rintro ⟨-, hall, -⟩
        omega
      · rintro rfl
        exact ⟨rfl, hn, hcontrol, rfl⟩
  · intro s quiet e rest hp hquiet hr hc he
    obtain ⟨hpending, -⟩ := commandPending_append quiet e rest
    exact s.pending_not_ended (by rw [hp]; exact hpending hquiet hr hc) he
  · intro s before after e hr
    obtain ⟨-, hreset⟩ := commandPending_append before e after
    exact s.ended_congr_port _ _ (hreset hr)

end Sys2Proof.Machine
